-- ==== Sys2Proof/Word.lean ====
section
/-! DEFINITION. The words of the predictor block, the names it uses, and its plainest arithmetic
(spec/00_scope.md R8, R10, R13; spec/20_memory.md R27; spec/30_encoding.md R36, R40, R41). -/

namespace Sys2Proof

/-- The 32-bit unsigned program-counter operand of a request (R20, R36). -/
abbrev Pc := BitVec 32

/-- A 2-bit saturating counter, stored in plain binary (R17). -/
abbrev Counter := BitVec 2

/-- A history register: an unbounded natural used as a shift register, newest outcome in bit 0 (R18, R19). -/
abbrev History := Nat

/-- The engine request word `REQ[34:0]` (R36). -/
abbrev ReqWord := BitVec 35

/-- The counter-table port word `CTREQ[33:0]` (R41). -/
abbrev PortWord := BitVec 34

/-- The response `RSP[2:0]` of an engine request (R40). -/
abbrev RspWord := BitVec 3

/-- The response `CTRSP[3:0]` of a counter-table port (R41). -/
abbrev PortRspWord := BitVec 4

/-- A byte of the host's trace stream (R84). -/
abbrev Byte := BitVec 8

/-- Which engine the block is (R8). -/
inductive Variant where
  | gshare
  | bimodal
  | tournament
  deriving DecidableEq, Repr

/-- The counter tables of the block, each its own index space (R16, R27). -/
inductive TableName where
  | pt   -- prediction table (GSHARE, BIMODAL)
  | lpt  -- local-prediction table (TOURNAMENT)
  | gpt  -- global-prediction table (TOURNAMENT)
  | cht  -- chooser table (TOURNAMENT)
  deriving DecidableEq, Repr

/-- MASK = 2^k - 1 as the 32-bit field `CFG.MASK` (R7, R21). -/
def maskOf (k : Fin 33) : BitVec 32 := BitVec.ofNat 32 (2 ^ k.val - 1)

end Sys2Proof
end

