-- ==== Sys2Proof/Config.lean ====
section
/-! DEFINITION. What the spec leaves to whoever builds or reports on the block: the construction arguments that
State.reset stands for, and the two open parameters of the host's reporter (spec/00_scope.md R9,
spec/92_eei_decisions.md D19). -/

namespace Sys2Proof

/-- The VARIANT argument of the construction that `State.reset` stands for.
DESIGN CHOICE (log 1), unsafe: the spec names no default engine; vector K9 writes this one's reset state out. -/
def Config.resetVariant : Variant := .tournament

/-- log2 of the MEM_LIMIT argument of the construction that `State.reset` stands for (N = 4).
DESIGN CHOICE (log 1), unsafe: the spec names no default size; vector K9 uses this one. -/
def Config.resetLog2N : Fin 33 := 2

/-- The counter table whose port a 34-bit word of the opcode table is taken to address when nothing else says
which (`decodeTableWord`, `withFetchWord`). DESIGN CHOICE (log 9), safe. -/
def Config.portTable : TableName := .lpt

/-- REPORT_DECIMALS: how many decimals the reporter displays. OPEN in the spec (R9, D19, I5). -/
opaque Config.reportDecimals : Nat

/-- REPORT_ROUNDING: how the reporter turns the exact scaled rate into the displayed digits. OPEN in the spec
(R88, D19, I6). -/
opaque Config.reportRounding : ℚ → ℤ

end Sys2Proof
end

