-- ==== Sys2Proof/Syntax.lean ====
section
/-! DEFINITION. The requests of the block: one constructor for each row of spec/opcode_table.json, and the two kinds of
request word they are sent as (spec/30_encoding.md R36, R37, R39, R41). -/

namespace Sys2Proof

/-- A request word on one of the block's two kinds of interface. -/
inductive Wire where
  /-- A word on the engine's request interface (R36). -/
  | request (w : ReqWord)
  /-- A word on the internal port of counter table `t` (R41). -/
  | port (t : TableName) (w : PortWord)
  deriving DecidableEq, Repr

/-- The requests, one constructor per row of spec/opcode_table.json. The word of a port request does not say which
table it is for: the port it is sent on does (R41), so these constructors carry the table. -/
inductive Instr where
  /-- GSHARE.PREDICT, `predict <pc>` (R54). -/
  | gsharePredict (pc : Pc)
  /-- GSHARE.TRAIN, `train <pc>, <o>` (R55). -/
  | gshareTrain (pc : Pc) (o : Bool)
  /-- BIMODAL.PREDICT, `predict <pc>` (R61). -/
  | bimodalPredict (pc : Pc)
  /-- BIMODAL.TRAIN, `train <pc>, <o>` (R62). -/
  | bimodalTrain (pc : Pc) (o : Bool)
  /-- TOURNAMENT.PREDICT, `predict <pc>` (R68). -/
  | tournamentPredict (pc : Pc)
  /-- TOURNAMENT.TRAIN, `train <pc>, <o>` (R69). -/
  | tournamentTrain (pc : Pc) (o : Bool)
  /-- ILLEGAL.PREDICT_O1: OP = 0b00 with O = 1; `bits` are the word's 32 free bits (R38). -/
  | illegalPredictO1 (bits : BitVec 32)
  /-- ILLEGAL.OP_RESERVED: OP = 0b10 or 0b11; `bits` are the word's 34 free bits (R39). -/
  | illegalOpReserved (bits : BitVec 34)
  /-- CT.GET, `ct.get <index>` on the port of `t` (R47). -/
  | ctGet (t : TableName) (index : BitVec 32)
  /-- CT.INC, `ct.inc <index>` on the port of `t` (R48). -/
  | ctInc (t : TableName) (index : BitVec 32)
  /-- CT.DEC, `ct.dec <index>` on the port of `t` (R49). -/
  | ctDec (t : TableName) (index : BitVec 32)
  /-- ILLEGAL.CTOP_RESERVED: CTOP = 0b11 on the port of `t`; `bits` are the word's 32 free bits (R41). -/
  | illegalCtopReserved (t : TableName) (bits : BitVec 32)
  deriving DecidableEq, Repr

end Sys2Proof
end

