-- ==== Sys2Proof/Machine/State.lean ====
section
/-! DEFINITION. The state of one predictor block and of its host interface, as plain data (spec/10_state.md R16 to R25,
spec/70_reset_and_hazards.md R91 to R93), with the reasons a step can stop. -/

namespace Sys2Proof.Machine

/-- Error codes (R74): 0 NONE, 1 ILLEGAL_REQUEST, 2 INDEX_RANGE, 3 CONFIG_ERROR (construction only). -/
inductive Err where
  | noError
  | illegalRequest
  | indexRange
  | configError
  deriving DecidableEq, Repr

/-- `CFG`, fixed at construction and read-only afterwards (R21). -/
structure Cfg where
  /-- `CFG.VARIANT`: the engine; its 2-bit code is `variantCode`. -/
  variant : Variant
  /-- `CFG.LOG2_N`: k in 0..32, with N = 2^k. -/
  log2N : Fin 33
  /-- `CFG.MASK` = 2^k - 1, derived at construction. -/
  mask : BitVec 32
  deriving DecidableEq, Repr

/-- `STATUS` (R22). -/
structure Status where
  /-- `STATUS.FAULT`: sticky until the next construction. -/
  fault : Bool
  /-- `STATUS.ERR`: written together with FAULT. -/
  err : Err
  deriving DecidableEq, Repr

/-- A counter table as (index, counter) pairs: indices strictly rising, no pair equal to what an unlisted index reads as
(`tableFill`), so that equal tables are equal data even at N = 2^32. -/
abbrev Table := List (Nat × Counter)

/-- The local-history table as (slot, history) pairs in the same form; an unlisted slot reads 0. -/
abbrev HistoryTable := List (Nat × History)

/-- One constructed block (R16). An element that the VARIANT does not have is kept blank (empty, or 0): `Block.Wf`. -/
structure Block where
  cfg : Cfg
  status : Status
  /-- `PT`, the prediction table (GSHARE, BIMODAL). -/
  pt : Table
  /-- `LPT`, the local-prediction table (TOURNAMENT). -/
  lpt : Table
  /-- `GPT`, the global-prediction table (TOURNAMENT). -/
  gpt : Table
  /-- `CHT`, the chooser table (TOURNAMENT). -/
  cht : Table
  /-- `GHR`, the global-history register (GSHARE, TOURNAMENT). -/
  ghr : History
  /-- `LHT`, the local-history table (TOURNAMENT). -/
  lht : HistoryTable
  deriving DecidableEq, Repr

/-- What the host (or the test of a counter table alone) sends, one at a time (R83, R97). -/
inductive Input where
  /-- Construct the block with a VARIANT code and a MEM_LIMIT (R75, R91). -/
  | construct (code : BitVec 2) (memLimit : Nat)
  /-- Send one request word. -/
  | send (w : Wire)
  deriving DecidableEq, Repr

/-- What the block answers (R40, R41, R83). -/
inductive Response where
  /-- The outcome of a construction: `noError` (OK) or `configError`. -/
  | construction (err : Err)
  /-- `RSP[2:0]` of an engine request. -/
  | engine (rsp : RspWord)
  /-- `CTRSP[3:0]` of a counter-table port request. -/
  | port (rsp : PortRspWord)
  deriving DecidableEq, Repr

/-- The machine: one block, what the host has sent and it has not yet taken, and its latest answer. -/
structure State where
  /-- The block; none when the latest construction raised CONFIG_ERROR: then no table, register or STATUS exists (R75). -/
  block : Option Block
  /-- MODEL's own field: what the host has sent, oldest first. -/
  inputs : List Input
  /-- MODEL's own field: the answer to the latest construction or request that completed. -/
  response : Option Response
  deriving DecidableEq, Repr

/-- Why a step stops with a fault. -/
inductive Fault where
  /-- The block is faulted (STATUS.FAULT = 1) and no construction waits: a request is not accepted, gets no response and
  changes nothing; the block has no further step (R78, R81, I17). Raised by every meaning, and by a step that has no
  construction to take. Safe: the machine stops where the spec says it has no step. -/
  | blockFaulted
  /-- There is no block, since the latest construction raised CONFIG_ERROR: no request can be sent (R75). Raised by every
  meaning, and by a step that has no construction to take. Safe. -/
  | noBlock
  deriving DecidableEq, Repr

/-- Why the model gives a step no meaning. -/
inductive Refusal where
  /-- No meaning yet for the instruction. Raised by no arm of this model. Safe. -/
  | notModelled (mnemonic : String)
  /-- The request is one of an engine that this block is not (R8, R37). Raised by the six engine meanings on a block of
  another VARIANT, to which no word decodes: no step answers it. Safe. -/
  | engineNotBuilt (v : Variant)
  /-- The port word is for a table that a block of this VARIANT does not have (R16), so the port does not exist. Raised by
  the four port meanings. Safe. -/
  | tableNotBuilt (t : TableName)
  /-- Construction with a power of two above 2^32: the spec's own refusal, "no hardware meaning" (R7, R75, D11). Raised by
  construction. Safe. -/
  | memLimitAbove2Pow32
  deriving DecidableEq, Repr

/-- The block right after construction with VARIANT `v` and MEM_LIMIT = 2^k (R92): every table lists nothing, so PT, LPT
and GPT read 0 and CHT reads 2 (`tableFill`), LHT reads 0. -/
def Block.fresh (v : Variant) (k : Fin 33) : Block where
  cfg := { variant := v, log2N := k, mask := maskOf k }
  status := { fault := false, err := .noError }
  pt := []
  lpt := []
  gpt := []
  cht := []
  ghr := 0
  lht := []

/-- Right after reset, which is construction (R91). The spec fixes every value but the two construction arguments;
`Config` names those (DESIGN CHOICE, log 1). -/
def State.reset : State where
  block := some (Block.fresh Config.resetVariant Config.resetLog2N)
  inputs := []
  response := some (.construction .noError)

end Sys2Proof.Machine
end

