-- ==== Sys2Proof/Machine/Flags.lean ====
section
/-! DEFINITION. The block's only flags, STATUS and the error codes, and the response words that carry them to the host
(spec/10_state.md R22, spec/30_encoding.md R40, R41, spec/60_exceptions.md R74). -/

namespace Sys2Proof.Machine

/-- The 2-bit error code (R74). -/
def errCode : Err → BitVec 2
  | .noError => 0#2
  | .illegalRequest => 1#2
  | .indexRange => 2#2
  | .configError => 3#2

/-- `RSP[2:0] = {ERR, PRED}` (R40). -/
def engineRsp (e : Err) (pred : Bool) : RspWord := errCode e ++ BitVec.ofBool pred

/-- `CTRSP[3:0] = {ERR, VAL}` (R41). -/
def portRsp (e : Err) (val : Counter) : PortRspWord := errCode e ++ val

/-- STATUS after a request that raises `e` (R78). -/
def faultedStatus (e : Err) : Status := { fault := true, err := e }

/-- The interface a request came on, which is the one its response goes out on. -/
inductive Channel where
  | engine
  | port
  deriving DecidableEq, Repr

/-- The response of a request that raises `e`: ERR = code(e), and PRED (or VAL) = 0 (R78). -/
def errorResponse (ch : Channel) (e : Err) : Response :=
  match ch with
  | .engine => .engine (engineRsp e false)
  | .port => .port (portRsp e 0)

/-- `PRED` of an engine response. -/
def rspPred (r : RspWord) : Bool := r.getLsbD 0

/-- `ERR` of an engine response. -/
def rspErr (r : RspWord) : BitVec 2 := r.extractLsb' 1 2

/-- `VAL` of a port response. -/
def portRspVal (r : PortRspWord) : Counter := r.extractLsb' 0 2

/-- `ERR` of a port response. -/
def portRspErr (r : PortRspWord) : BitVec 2 := r.extractLsb' 2 2

end Sys2Proof.Machine
end

