-- ==== Sys2Proof/WellFormed.lean ====
section
/-! DEFINITION. Which requests exist on a block of a given VARIANT (spec/10_state.md R16, spec/30_encoding.md R37, R41):
every operand value is admitted, so the checks are the engine and the table. -/

namespace Sys2Proof

/-- Which counter tables a block of each VARIANT has (R16). -/
def Variant.hasTable : Variant → TableName → Bool
  | .gshare, .pt => true
  | .bimodal, .pt => true
  | .tournament, .lpt => true
  | .tournament, .gpt => true
  | .tournament, .cht => true
  | .gshare, .lpt => false
  | .gshare, .gpt => false
  | .gshare, .cht => false
  | .bimodal, .lpt => false
  | .bimodal, .gpt => false
  | .bimodal, .cht => false
  | .tournament, .pt => false

/-- Whether a block of each VARIANT has the global-history register GHR (R16, R18). -/
def Variant.hasGhr : Variant → Bool
  | .gshare => true
  | .bimodal => false
  | .tournament => true

/-- Whether a block of each VARIANT has the local-history table LHT (R16, R19). -/
def Variant.hasLht : Variant → Bool
  | .gshare => false
  | .bimodal => false
  | .tournament => true

/-- The request exists on a block of VARIANT `v`: an engine request of that engine, an illegal engine word, or a port
word for a table the block has. -/
def Instr.wellFormed (v : Variant) : Instr → Bool
  | .gsharePredict _ => v = .gshare
  | .gshareTrain _ _ => v = .gshare
  | .bimodalPredict _ => v = .bimodal
  | .bimodalTrain _ _ => v = .bimodal
  | .tournamentPredict _ => v = .tournament
  | .tournamentTrain _ _ => v = .tournament
  | .illegalPredictO1 _ => true
  | .illegalOpReserved _ => true
  | .ctGet t _ => v.hasTable t
  | .ctInc t _ => v.hasTable t
  | .ctDec t _ => v.hasTable t
  | .illegalCtopReserved t _ => v.hasTable t

/-- The word is sent on an interface that a block of VARIANT `v` has. -/
def Wire.wellFormed (v : Variant) : Wire → Bool
  | .request _ => true
  | .port t _ => v.hasTable t

end Sys2Proof
end

