-- ==== Sys2Proof/Machine/Ops.lean ====
section
/-! DEFINITION. The shared operations: counter and history primitives, tables as sparse lists, accepting a request,
completing it, and raising an error, which is this block's only exception entry (spec/00_scope.md R11, R12;
spec/20_memory.md R27, R30; spec/60_exceptions.md R78). There is no return from an error (R81): the only way on is a
new construction, Machine/Construct.lean. -/

namespace Sys2Proof.Machine

/-! ### Counters and histories (R12) -/

/-- `sat_inc(c)`: at 3 it stays 3. -/
def satInc (c : Counter) : Counter := if c.toNat < 3 then c + 1 else 3

/-- `sat_dec(c)`: at 0 it stays 0. -/
def satDec (c : Counter) : Counter := if 0 < c.toNat then c - 1 else 0

/-- `ctr_update(c, o)`. -/
def ctrUpdate (c : Counter) (o : Bool) : Counter := if o then satInc c else satDec c

/-- `taken(c) = (c >= 2)` (R51). -/
def taken (c : Counter) : Bool := decide (2 ≤ c.toNat)

/-- `shift_in(h, o) = (h << 1) | o`. -/
def shiftIn (h : History) (o : Bool) : History := 2 * h + o.toNat

/-! ### Sparse arrays: strictly rising indices, no pair holding the fill -/

/-- The value at index `i`; an unlisted index reads as the fill `d`. -/
def arrRead {α : Type} (d : α) : List (Nat × α) → Nat → α
  | [], _ => d
  | (j, v) :: rest, i => if j = i then v else arrRead d rest i

/-- Put a pair where its index belongs in a rising list. -/
def arrInsert {α : Type} (i : Nat) (v : α) : List (Nat × α) → List (Nat × α)
  | [] => [(i, v)]
  | (j, w) :: rest => if i < j then (i, v) :: (j, w) :: rest else (j, w) :: arrInsert i v rest

/-- Write `v` at index `i`. Writing the fill unlists the index, so the form stays canonical. -/
def arrWrite {α : Type} [DecidableEq α] (d : α) (l : List (Nat × α)) (i : Nat) (v : α) : List (Nat × α) :=
  let others := l.filter (fun p => p.1 != i)
  if v = d then others else arrInsert i v others

/-! ### Tables and histories of a block (R16, R30, R92) -/

/-- What an index that nothing has written reads as: the reset value of the table (R92). -/
def tableFill : TableName → Counter
  | .pt => 0
  | .lpt => 0
  | .gpt => 0
  | .cht => 2

/-- The reset value of an LHT entry (R92). -/
def historyFill : History := 0

/-- N = 2^k, the number of entries of every table (R6, R7). -/
def entries (b : Block) : Nat := 2 ^ b.cfg.log2N.val

/-- The table of that name. -/
def tableOf (b : Block) : TableName → Table
  | .pt => b.pt
  | .lpt => b.lpt
  | .gpt => b.gpt
  | .cht => b.cht

/-- The block with that table replaced. -/
def setTable (b : Block) (t : TableName) (l : Table) : Block :=
  match t with
  | .pt => { b with pt := l }
  | .lpt => { b with lpt := l }
  | .gpt => { b with gpt := l }
  | .cht => { b with cht := l }

/-- `T[i]`. -/
def readCtr (b : Block) (t : TableName) (i : Nat) : Counter := arrRead (tableFill t) (tableOf b t) i

/-- `LHT[i]`. -/
def readHist (b : Block) (i : Nat) : History := arrRead historyFill b.lht i

/-- Table `t` after `T[i] <- f(T[i])`. -/
def updatedTable (b : Block) (t : TableName) (i : Nat) (f : Counter → Counter) : Table :=
  arrWrite (tableFill t) (tableOf b t) i (f (readCtr b t i))

/-- Table `t` after CT.INC at `i` for a taken outcome and CT.DEC for a not-taken one (R50). -/
def trainedTable (b : Block) (t : TableName) (i : Nat) (o : Bool) : Table :=
  updatedTable b t i (fun c => ctrUpdate c o)

/-- LHT after `LHT[i] <- shift_in(LHT[i], o)` (R19). -/
def shiftedHistories (b : Block) (i : Nat) (o : Bool) : HistoryTable :=
  arrWrite historyFill b.lht i (shiftIn (readHist b i) o)

/-! ### Accepting, completing and failing a request -/

/-- A request is accepted by a block that exists and is not faulted (R75, R78). -/
def accepting (s : State) (k : Block → Host.Outcome State Fault Refusal) : Host.Outcome State Fault Refusal :=
  match s.block with
  | none => .fault .noBlock
  | some b => if b.status.fault then .fault .blockFaulted else k b

/-- An accepted request of engine `v`: it exists only on a block of that VARIANT (R37). -/
def onEngine (v : Variant) (s : State) (k : Block → Host.Outcome State Fault Refusal) :
    Host.Outcome State Fault Refusal :=
  accepting s fun b => if b.cfg.variant = v then k b else .refused (.engineNotBuilt v)

/-- An accepted request on the port of table `t`: it exists only on a block that has the table (R16, R41). -/
def onPort (t : TableName) (s : State) (k : Block → Host.Outcome State Fault Refusal) :
    Host.Outcome State Fault Refusal :=
  accepting s fun b => if b.cfg.variant.hasTable t then k b else .refused (.tableNotBuilt t)

/-- The request completes: all its writes, gathered in `b`, take effect together and the response goes out (R31, R40). -/
def complete (s : State) (b : Block) (r : Response) : Host.Outcome State Fault Refusal :=
  .next { s with block := some b, response := some r }

/-- The request raises `e`: no table or history is written, STATUS records the error and the response carries it (R78). -/
def raiseError (s : State) (b : Block) (ch : Channel) (e : Err) : Host.Outcome State Fault Refusal :=
  complete s { b with status := faultedStatus e } (errorResponse ch e)

/-- R46: a port operation checks its index against N before it reads or writes anything. -/
def checkingIndex (s : State) (b : Block) (index : BitVec 32) (k : Host.Outcome State Fault Refusal) :
    Host.Outcome State Fault Refusal :=
  if index.toNat < entries b then k else raiseError s b .port .indexRange

/-- No input waits: the block, untimed and passive, keeps its state (R99); a faulted or absent block has no step.
DESIGN CHOICE (log 4). -/
def idle (s : State) : Host.Outcome State Fault Refusal := accepting s fun _ => .next s

end Sys2Proof.Machine
end

