-- ==== Sys2Proof/Machine/Operands.lean ====
section
/-! DEFINITION. Operand formation: every table index and component prediction that an engine forms from the pc operand and
its history (spec/30_encoding.md R43; spec/41_gshare.md R53; spec/42_bimodal.md R60; spec/43_tournament.md R66, R67).
All of them read the state as it stood before the request (R31). -/

namespace Sys2Proof.Machine

/-- `x & MASK`. -/
def masked (b : Block) (x : Nat) : Nat := x &&& b.cfg.mask.toNat

/-- `pc & MASK`: the Bimodal index `bidx` (R60), and the local-history slot `s` and chooser index `ci` (R66). -/
def pcIndex (b : Block) (pc : Pc) : Nat := masked b pc.toNat

/-- `(pc & MASK) XOR (GHR & MASK)`: the Gshare index `gidx` (R53), and the Tournament globalIndex `gi` (R66). -/
def globalIndex (b : Block) (pc : Pc) : Nat := masked b pc.toNat ^^^ masked b b.ghr

/-- `(LHT[s] XOR pc) & MASK`: the Tournament localIndex `li` (R66). -/
def localIndex (b : Block) (pc : Pc) : Nat := masked b (readHist b (pcIndex b pc) ^^^ pc.toNat)

/-- `lp = taken(LPT[li])` (R67). -/
def localPrediction (b : Block) (pc : Pc) : Bool := taken (readCtr b .lpt (localIndex b pc))

/-- `gp = taken(GPT[gi])` (R67). -/
def globalPrediction (b : Block) (pc : Pc) : Bool := taken (readCtr b .gpt (globalIndex b pc))

/-- `ch = CHT[ci]` (R67). -/
def chooserValue (b : Block) (pc : Pc) : Counter := readCtr b .cht (pcIndex b pc)

end Sys2Proof.Machine
end

