-- ==== Sys2Proof/Machine/Bimodal.lean ====
section
/-! DEFINITION. The Bimodal engine (spec/42_bimodal.md R59 to R64). -/

namespace Sys2Proof.Machine

/-- BIMODAL.PREDICT (R61): `PRED <- taken(PT[pc & MASK])`, nothing written. -/
def execBimodalPredict (pc : Pc) (s : State) : Host.Outcome State Fault Refusal :=
  onEngine .bimodal s fun b =>
    complete s b (.engine (engineRsp .noError (taken (readCtr b .pt (pcIndex b pc)))))

/-- BIMODAL.TRAIN (R62): the indexed counter is trained, and nothing else. -/
def execBimodalTrain (pc : Pc) (o : Bool) (s : State) : Host.Outcome State Fault Refusal :=
  onEngine .bimodal s fun b =>
    complete s { b with pt := trainedTable b .pt (pcIndex b pc) o } (.engine (engineRsp .noError false))

end Sys2Proof.Machine
end

