-- ==== Sys2Proof/Machine/CounterTable.lean ====
section
/-! DEFINITION. The Counter Table operations on a table's internal port: CT.GET, CT.INC, CT.DEC, and the reserved CTOP
(spec/40_counter_table.md R46 to R49, spec/30_encoding.md R41, spec/60_exceptions.md R76, R79). -/

namespace Sys2Proof.Machine

/-- CT.GET (R47): `VAL <- T[INDEX]`, nothing written. -/
def execCtGet (t : TableName) (index : BitVec 32) (s : State) : Host.Outcome State Fault Refusal :=
  onPort t s fun b => checkingIndex s b index <|
    complete s b (.port (portRsp .noError (readCtr b t index.toNat)))

/-- CT.INC (R48): `T[INDEX] <- sat_inc(T[INDEX])`, `VAL <- 0`. -/
def execCtInc (t : TableName) (index : BitVec 32) (s : State) : Host.Outcome State Fault Refusal :=
  onPort t s fun b => checkingIndex s b index <|
    complete s (setTable b t (updatedTable b t index.toNat satInc)) (.port (portRsp .noError 0))

/-- CT.DEC (R49): `T[INDEX] <- sat_dec(T[INDEX])`, `VAL <- 0`. -/
def execCtDec (t : TableName) (index : BitVec 32) (s : State) : Host.Outcome State Fault Refusal :=
  onPort t s fun b => checkingIndex s b index <|
    complete s (setTable b t (updatedTable b t index.toNat satDec)) (.port (portRsp .noError 0))

/-- ILLEGAL.CTOP_RESERVED (R41): ILLEGAL_REQUEST whatever the index bits; the index is not checked (R79). -/
def execIllegalCtopReserved (t : TableName) (_bits : BitVec 32) (s : State) : Host.Outcome State Fault Refusal :=
  onPort t s fun b => raiseError s b .port .illegalRequest

end Sys2Proof.Machine
end

