-- ==== Sys2Proof/Machine/Gshare.lean ====
section
/-! DEFINITION. The Gshare engine (spec/41_gshare.md R52 to R58). -/

namespace Sys2Proof.Machine

/-- GSHARE.PREDICT (R54): `PRED <- taken(PT[gidx])`, nothing written. -/
def execGsharePredict (pc : Pc) (s : State) : Host.Outcome State Fault Refusal :=
  onEngine .gshare s fun b =>
    complete s b (.engine (engineRsp .noError (taken (readCtr b .pt (globalIndex b pc)))))

/-- GSHARE.TRAIN (R55): the indexed counter is trained and the outcome shifts into GHR; the index is that of the
un-updated GHR. -/
def execGshareTrain (pc : Pc) (o : Bool) (s : State) : Host.Outcome State Fault Refusal :=
  onEngine .gshare s fun b =>
    complete s { b with pt := trainedTable b .pt (globalIndex b pc) o, ghr := shiftIn b.ghr o }
      (.engine (engineRsp .noError false))

end Sys2Proof.Machine
end

