-- ==== Sys2Proof/Machine/Illegal.lean ====
section
/-! DEFINITION. The illegal engine words (spec/30_encoding.md R38, R39; spec/60_exceptions.md R76, R78): each takes the
block's only exception, ILLEGAL_REQUEST, raised at decode and so on every VARIANT. -/

namespace Sys2Proof.Machine

/-- ILLEGAL.PREDICT_O1 (R38). -/
def execIllegalPredictO1 (_bits : BitVec 32) (s : State) : Host.Outcome State Fault Refusal :=
  accepting s fun b => raiseError s b .engine .illegalRequest

/-- ILLEGAL.OP_RESERVED (R39). -/
def execIllegalOpReserved (_bits : BitVec 34) (s : State) : Host.Outcome State Fault Refusal :=
  accepting s fun b => raiseError s b .engine .illegalRequest

end Sys2Proof.Machine
end

