-- ==== Sys2Proof/Machine/Tournament.lean ====
section
/-! DEFINITION. The Tournament meta-predictor (spec/43_tournament.md R65 to R73). -/

namespace Sys2Proof.Machine

/-- The chooser counter after step 2 of R69, the table of R70: towards global (up) when only global was right, towards
local (down) when only local was right. -/
def chooserUpdate (c : Counter) (lp gp o : Bool) : Counter :=
  if lp ≠ o ∧ gp = o then satInc c
  else if lp = o ∧ gp ≠ o then satDec c
  else c

/-- TOURNAMENT.PREDICT (R68): the chooser picks the global prediction at 2 or more, else the local one; nothing
written. -/
def execTournamentPredict (pc : Pc) (s : State) : Host.Outcome State Fault Refusal :=
  onEngine .tournament s fun b =>
    complete s b (.engine (engineRsp .noError
      (bif taken (chooserValue b pc) then globalPrediction b pc else localPrediction b pc)))

/-- TOURNAMENT.TRAIN (R69): chooser, local counter, local history, global counter and global history, every right-hand
side reading the state before the request. -/
def execTournamentTrain (pc : Pc) (o : Bool) (s : State) : Host.Outcome State Fault Refusal :=
  onEngine .tournament s fun b =>
    complete s
      { b with
        cht := updatedTable b .cht (pcIndex b pc)
          (fun c => chooserUpdate c (localPrediction b pc) (globalPrediction b pc) o)
        lpt := trainedTable b .lpt (localIndex b pc) o
        lht := shiftedHistories b (pcIndex b pc) o
        gpt := trainedTable b .gpt (globalIndex b pc) o
        ghr := shiftIn b.ghr o }
      (.engine (engineRsp .noError false))

end Sys2Proof.Machine
end

