-- ==== Sys2Proof/Machine/Dispatch.lean ====
section
/-! DEFINITION. One arm per row of spec/opcode_table.json, each a direct call of the request's meaning. -/

namespace Sys2Proof.Machine

def exec (i : Instr) (s : State) : Host.Outcome State Fault Refusal :=
  match i with
  | .gsharePredict pc => Sys2Proof.Machine.execGsharePredict pc s
  | .gshareTrain pc o => Sys2Proof.Machine.execGshareTrain pc o s
  | .bimodalPredict pc => Sys2Proof.Machine.execBimodalPredict pc s
  | .bimodalTrain pc o => Sys2Proof.Machine.execBimodalTrain pc o s
  | .tournamentPredict pc => Sys2Proof.Machine.execTournamentPredict pc s
  | .tournamentTrain pc o => Sys2Proof.Machine.execTournamentTrain pc o s
  | .illegalPredictO1 bits => Sys2Proof.Machine.execIllegalPredictO1 bits s
  | .illegalOpReserved bits => Sys2Proof.Machine.execIllegalOpReserved bits s
  | .ctGet t index => Sys2Proof.Machine.execCtGet t index s
  | .ctInc t index => Sys2Proof.Machine.execCtInc t index s
  | .ctDec t index => Sys2Proof.Machine.execCtDec t index s
  | .illegalCtopReserved t bits => Sys2Proof.Machine.execIllegalCtopReserved t bits s

end Sys2Proof.Machine
end

