-- ==== Sys2Proof/Decode.lean ====
section
/-! DEFINITION. Decoding of request words, total on every 35-bit engine word and every 34-bit port word
(spec/30_encoding.md R36, R37, R41, R45), and the encoder written from the same tables. The words the spec calls
illegal decode, by name, to the illegal rows of the opcode table. -/

namespace Sys2Proof

/-! ### The construction argument (R35) -/

/-- The 2-bit code of an engine (R35). -/
def variantCode : Variant → BitVec 2
  | .gshare => 0b00#2
  | .bimodal => 0b01#2
  | .tournament => 0b10#2

/-- The engine a 2-bit code names; 0b11 is reserved (R35). -/
def variantOfCode (c : BitVec 2) : Option Variant :=
  if c = 0b00#2 then some .gshare
  else if c = 0b01#2 then some .bimodal
  else if c = 0b10#2 then some .tournament
  else none

/-! ### Fields (R36, R41, R43) -/

/-- `OP = REQ[34:33]`. -/
def reqOp (w : ReqWord) : BitVec 2 := w.extractLsb' 33 2

/-- `O = REQ[32]`. -/
def reqOutcome (w : ReqWord) : Bool := w.getLsbD 32

/-- `PC = REQ[31:0]`, read unsigned, neither extended nor scaled (R43). -/
def reqPc (w : ReqWord) : Pc := w.extractLsb' 0 32

/-- `CTOP = CTREQ[33:32]`. -/
def portOp (w : PortWord) : BitVec 2 := w.extractLsb' 32 2

/-- `INDEX = CTREQ[31:0]`. -/
def portIndex (w : PortWord) : BitVec 32 := w.extractLsb' 0 32

/-! ### Decoding (R37, R45) -/

/-- The PREDICT request of each engine (R37). -/
def predictInstr (v : Variant) (pc : Pc) : Instr :=
  match v with
  | .gshare => .gsharePredict pc
  | .bimodal => .bimodalPredict pc
  | .tournament => .tournamentPredict pc

/-- The TRAIN request of each engine (R37). -/
def trainInstr (v : Variant) (pc : Pc) (o : Bool) : Instr :=
  match v with
  | .gshare => .gshareTrain pc o
  | .bimodal => .bimodalTrain pc o
  | .tournament => .tournamentTrain pc o

/-- R45's `decode`: the meaning of an engine word depends on CFG.VARIANT alone. -/
def decodeRequest (v : Variant) (w : ReqWord) : Instr :=
  if reqOp w = 0b00#2 then
    if reqOutcome w then .illegalPredictO1 (reqPc w) else predictInstr v (reqPc w)
  else if reqOp w = 0b01#2 then trainInstr v (reqPc w) (reqOutcome w)
  else .illegalOpReserved (w.extractLsb' 0 34)

/-- R45's `ct_decode`, on the port of table `t`. -/
def decodePort (t : TableName) (w : PortWord) : Instr :=
  if portOp w = 0b00#2 then .ctGet t (portIndex w)
  else if portOp w = 0b01#2 then .ctInc t (portIndex w)
  else if portOp w = 0b10#2 then .ctDec t (portIndex w)
  else .illegalCtopReserved t (portIndex w)

/-- The request a word is, on a block of VARIANT `v`. -/
def decode (v : Variant) : Wire → Instr
  | .request w => decodeRequest v w
  | .port t w => decodePort t w

/-! ### Encoding (R36, R41, R42) -/

/-- The PREDICT word `{0b00, 0b0, pc}` (R42). -/
def predictWord (pc : Pc) : ReqWord := 0b00#2 ++ 0b0#1 ++ pc

/-- The TRAIN word `{0b01, o, pc}` (R42). -/
def trainWord (pc : Pc) (o : Bool) : ReqWord := 0b01#2 ++ BitVec.ofBool o ++ pc

/-- The port word `{CTOP, index}` (R41, R42). -/
def portWord (ctop : BitVec 2) (index : BitVec 32) : PortWord := ctop ++ index

/-- The word of a request, with the interface it is sent on. -/
def encode : Instr → Wire
  | .gsharePredict pc => .request (predictWord pc)
  | .gshareTrain pc o => .request (trainWord pc o)
  | .bimodalPredict pc => .request (predictWord pc)
  | .bimodalTrain pc o => .request (trainWord pc o)
  | .tournamentPredict pc => .request (predictWord pc)
  | .tournamentTrain pc o => .request (trainWord pc o)
  | .illegalPredictO1 bits => .request (0b00#2 ++ 0b1#1 ++ bits)
  | .illegalOpReserved bits => .request (0b1#1 ++ bits)
  | .ctGet t index => .port t (portWord 0b00#2 index)
  | .ctInc t index => .port t (portWord 0b01#2 index)
  | .ctDec t index => .port t (portWord 0b10#2 index)
  | .illegalCtopReserved t bits => .port t (portWord 0b11#2 bits)

/-! ### The opcode table's numbering of words -/

/-- The word that `w`, numbered as spec/opcode_table.json numbers it, stands for: a 34-bit row is a port word, every
other width an engine word (log 9: a 35-bit and a 34-bit row have one width in whole bytes). None where the number does
not fit the word. -/
def tableWire (nbits w : Nat) : Option Wire :=
  if nbits = 34 then
    if w < 2 ^ 34 then some (.port Config.portTable (BitVec.ofNat 34 w)) else none
  else if w < 2 ^ 35 then some (.request (BitVec.ofNat 35 w)) else none

/-- What the decoder of a block constructed as `State.reset` reads from a word of the opcode table. -/
def decodeTableWord (nbits w : Nat) : Option Instr :=
  (tableWire nbits w).map (decode Config.resetVariant)

end Sys2Proof
end

