-- ==== Sys2Proof/Machine/Construct.lean ====
section
/-! DEFINITION. Construction, which is the block's reset (spec/60_exceptions.md R75; spec/70_reset_and_hazards.md R91 to
R94). -/

namespace Sys2Proof.Machine

/-- R75's check: zero, or more than one bit set. -/
def notPowerOfTwo (n : Nat) : Bool := n = 0 || n &&& (n - 1) != 0

/-- CONFIG_ERROR: no table, register or STATUS exists afterwards, and earlier state is gone (R75, R93; DEDUCED, log 6). -/
def raiseConfigError (s : State) : Host.Outcome State Fault Refusal :=
  .next { s with block := none, response := some (.construction .configError) }

/-- `construct(VARIANT, N)` (R75), in the spec's order of checks; on success the state of R92, whatever was there before,
a fault included (R93). -/
def construct (code : BitVec 2) (memLimit : Nat) (s : State) : Host.Outcome State Fault Refusal :=
  match variantOfCode code with
  | none => raiseConfigError s
  | some v =>
    if notPowerOfTwo memLimit then raiseConfigError s
    else if h : memLimit.log2 < 33 then
      .next { s with block := some (Block.fresh v ⟨memLimit.log2, h⟩), response := some (.construction .noError) }
    else .refused .memLimitAbove2Pow32

end Sys2Proof.Machine
end

