-- ==== Sys2Proof/Machine/Interface.lean ====
section
/-! DEFINITION. The host interface around the block: how what the host sends waits, which request a word is on the
block as it stands, and what follows a word that is not accepted (spec/20_memory.md R32, spec/30_encoding.md R44, R45,
spec/60_exceptions.md R83, spec/70_reset_and_hazards.md R93). -/

namespace Sys2Proof.Machine

/-- The host sends one more input, behind those it has already sent (R32). -/
def issue (x : Input) (s : State) : State := { s with inputs := s.inputs ++ [x] }

/-- The request that a word is to a block which accepts it, decoded under CFG.VARIANT (R44); none where the block is faulted
(R78) or does not exist (R75). -/
def acceptedRequest (s : State) (w : Wire) : Option Instr :=
  match s.block with
  | none => none
  | some b => if b.status.fault then none else some (decode b.cfg.variant w)

/-- A word was sent that is not accepted, with `waiting` behind it: it changes nothing and gets no response (R83), and no word
after it does, until a construction (R93). Where none waits the block has no further step, which `idle` says. DEDUCED
(log 5). -/
def awaitConstruction (s : State) : List Input → Host.Outcome State Fault Refusal
  | [] => idle s
  | .construct code memLimit :: rest => construct code memLimit { s with inputs := rest }
  | .send _ :: waiting => awaitConstruction s waiting

/-- `PRED` of the latest answer, where it is that of an engine request. -/
def State.pred (s : State) : Option Bool :=
  match s.response with
  | some (.engine r) => some (rspPred r)
  | some (.port _) => none
  | some (.construction _) => none
  | none => none

/-- `ERR` of the latest answer (R40, R41, R83). -/
def State.respErr (s : State) : Option (BitVec 2) :=
  match s.response with
  | some (.engine r) => some (rspErr r)
  | some (.port r) => some (portRspErr r)
  | some (.construction e) => some (errCode e)
  | none => none

end Sys2Proof.Machine
end

