-- ==== Sys2Proof/Machine/Step.lean ====
section
/-! DEFINITION. One step of the machine: it takes the oldest input and carries it out as one indivisible transaction
(spec/20_memory.md R31, R32; spec/70_reset_and_hazards.md R97, R99). The block fetches nothing (R34): its program is the
host's stream of inputs. -/

namespace Sys2Proof.Machine

def step (s : State) : Host.Outcome State Fault Refusal :=
  match s.inputs with
  | [] => idle s
  | .construct code memLimit :: rest => construct code memLimit { s with inputs := rest }
  | .send w :: rest =>
    match acceptedRequest s w with
    | some i => exec i { s with inputs := rest }
    | none => awaitConstruction s rest

/-- The state in which the very next step takes the word that the opcode table's number `w` stands for (log 9); a
number that is no word changes nothing. -/
def State.withFetchWord (s : State) (nbits w : Nat) : State :=
  match tableWire nbits w with
  | some x => { s with inputs := .send x :: s.inputs }
  | none => s

end Sys2Proof.Machine
end

