-- ==== Sys2Proof/Machine/Assembler.lean ====
section
/-! DEFINITION. The written form of requests: one line each, with the directives `.config` and `.word` and the
pseudo-instruction `step` (spec/30_encoding.md R42). Text is a list of characters. It is the host's notation, outside the
block: no meaning uses it. -/

namespace Sys2Proof.Machine

/-- One line of the syntax of R42. -/
inductive AsmLine where
  | predict (pc : Pc)
  | train (pc : Pc) (o : Bool)
  | ctGet (index : BitVec 32)
  | ctInc (index : BitVec 32)
  | ctDec (index : BitVec 32)
  | config (v : Variant) (memLimit : Nat)
  | step (pc : Pc) (o : Bool)
  | word (w : ReqWord)
  deriving DecidableEq, Repr

/-- What a line makes the host send; a `ct.` line goes to the port of `t`, which the syntax does not name (log 10). -/
def assemble (t : TableName) : AsmLine → List Input
  | .predict pc => [.send (.request (predictWord pc))]
  | .train pc o => [.send (.request (trainWord pc o))]
  | .ctGet index => [.send (.port t (portWord 0b00#2 index))]
  | .ctInc index => [.send (.port t (portWord 0b01#2 index))]
  | .ctDec index => [.send (.port t (portWord 0b10#2 index))]
  | .config v memLimit => [.construct (variantCode v) memLimit]
  | .step pc o => [.send (.request (predictWord pc)), .send (.request (trainWord pc o))]
  | .word w => [.send (.request w)]

/-! ### Reading a line of text -/

/-- The value of a digit, decimal or hexadecimal. -/
def digitValue (c : Char) : Option Nat :=
  let n := c.toNat
  if 48 ≤ n ∧ n ≤ 57 then some (n - 48)
  else if 97 ≤ n ∧ n ≤ 102 then some (n - 87)
  else if 65 ≤ n ∧ n ≤ 70 then some (n - 55)
  else none

/-- Digits in a base, after those already read. -/
def digitsFrom (base acc : Nat) : List Char → Option Nat
  | [] => some acc
  | c :: cs =>
    match digitValue c with
    | some d => if d < base then digitsFrom base (base * acc + d) cs else none
    | none => none

/-- A number, decimal or `0x` hexadecimal. -/
def readNumber : List Char → Option Nat
  | [] => none
  | '0' :: 'x' :: c :: cs => digitsFrom 16 0 (c :: cs)
  | c :: cs => digitsFrom 10 0 (c :: cs)

/-- A number that fits `n` bits. -/
def readBits (n : Nat) (cs : List Char) : Option (BitVec n) :=
  match readNumber cs with
  | some v => if v < 2 ^ n then some (BitVec.ofNat n v) else none
  | none => none

/-- An outcome: `t` taken, `n` not-taken. -/
def readOutcome : List Char → Option Bool
  | ['t'] => some true
  | ['n'] => some false
  | _ => none

/-- The name of an engine. -/
def readVariant (cs : List Char) : Option Variant :=
  if cs = "GSHARE".toList then some .gshare
  else if cs = "BIMODAL".toList then some .bimodal
  else if cs = "TOURNAMENT".toList then some .tournament
  else none

/-- The tokens of a line up to `;`: words, and each comma on its own. The first argument is the word being read. -/
def tokensFrom (current : List Char) : List Char → List (List Char)
  | [] => if current = [] then [] else [current]
  | c :: cs =>
    let done := if current = [] then [] else [current]
    if c = ';' then done
    else if c = ',' then done ++ [','] :: tokensFrom [] cs
    else if c = ' ' ∨ c = '\t' then done ++ tokensFrom [] cs
    else tokensFrom (current ++ [c]) cs

/-- A line read: nothing but a comment, one request or directive, or not of the syntax. -/
inductive LineRead where
  | blank
  | line (l : AsmLine)
  | malformed
  deriving DecidableEq, Repr

/-- The line a value of its operands gives, or malformed where an operand does not read. -/
def lineOf : Option AsmLine → LineRead
  | some l => .line l
  | none => .malformed

/-- One line of R42. -/
def readLine (text : List Char) : LineRead :=
  match tokensFrom [] text with
  | [] => .blank
  | [op, a] =>
    if op = "predict".toList then lineOf ((readBits 32 a).map AsmLine.predict)
    else if op = "ct.get".toList then lineOf ((readBits 32 a).map AsmLine.ctGet)
    else if op = "ct.inc".toList then lineOf ((readBits 32 a).map AsmLine.ctInc)
    else if op = "ct.dec".toList then lineOf ((readBits 32 a).map AsmLine.ctDec)
    else if op = ".word".toList then lineOf ((readBits 35 a).map AsmLine.word)
    else .malformed
  | [op, a, [','], c] =>
    if op = "train".toList then
      lineOf ((readBits 32 a).bind fun pc => (readOutcome c).map (AsmLine.train pc))
    else if op = "step".toList then
      lineOf ((readBits 32 a).bind fun pc => (readOutcome c).map (AsmLine.step pc))
    else if op = ".config".toList then
      lineOf ((readVariant a).bind fun v => (readNumber c).map (AsmLine.config v))
    else .malformed
  | _ => .malformed

end Sys2Proof.Machine
end

