-- ==== Sys2Proof/Machine/Harness.lean ====
section
/-! DEFINITION. The host harness that drives the block: the trace format, the Trace Replay Loop with its run counters, and
the Result Reporter (spec/60_exceptions.md R84 to R89). It is software outside the block (R5): nothing here is part of
State or of step, and no meaning uses it. -/

namespace Sys2Proof.Machine

/-! ### The trace (R84, R85) -/

/-- One branch: its pc and its true outcome. -/
structure Record where
  pc : Pc
  outcome : Bool
  deriving DecidableEq, Repr

/-- The records of a byte stream: 4 bytes of pc, most significant first, and an outcome flag, any non-zero value of which
is taken (R84). A partial final record is discarded (R85). -/
def parseRecords : List Byte → List Record
  | b0 :: b1 :: b2 :: b3 :: f :: rest =>
    { pc := b0 ++ b1 ++ b2 ++ b3, outcome := f != 0 } :: parseRecords rest
  | _ => []

/-- The records of a trace file: after the leading 4-byte count, which the harness ignores (R84, I9). -/
def parseTrace (bytes : List Byte) : List Record := parseRecords (bytes.drop 4)

/-! ### The replay loop (R86, R87) -/

/-- The run counters, unbounded (R87). -/
structure Counts where
  branchCount : Nat
  mispredictCount : Nat
  deriving DecidableEq, Repr

/-- Send one request word and wait for its answer (R97). -/
def transact (w : ReqWord) (s : State) : Host.Outcome State Fault Refusal := step (issue (.send (.request w)) s)

/-- How a replay ends. -/
inductive ReplayEnd where
  /-- DONE, with the final counts and the block as it then stands. -/
  | done (counts : Counts) (s : State)
  /-- The block answered a request with an error: reported instead of counts (R86). -/
  | blockError (s : State)
  /-- A request was not carried out at all. -/
  | stopped
  deriving DecidableEq, Repr

/-- One record of the loop: count it, PREDICT, count a miss, TRAIN (R86). -/
def replayRecord (r : Record) (c : Counts) (s : State) : ReplayEnd :=
  match transact (predictWord r.pc) s with
  | .next s1 =>
    match s1.pred, s1.respErr with
    | some p, some 0#2 =>
      match transact (trainWord r.pc r.outcome) s1 with
      | .next s2 =>
        if s2.respErr = some 0#2 then
          .done { branchCount := c.branchCount + 1,
                  mispredictCount := c.mispredictCount + (if p ≠ r.outcome then 1 else 0) } s2
        else .blockError s2
      | .fault _ => .stopped
      | .refused _ => .stopped
    | _, _ => .blockError s1
  | .fault _ => .stopped
  | .refused _ => .stopped

/-- The loop over a trace's records, in arrival order (R86). -/
def replayFrom (records : List Record) (c : Counts) (s : State) : ReplayEnd :=
  match records with
  | [] => .done c s
  | r :: rest =>
    match replayRecord r c s with
    | .done c' s' => replayFrom rest c' s'
    | .blockError s' => .blockError s'
    | .stopped => .stopped

/-- The Trace Replay Loop from RUNNING with both counters 0 (R86). -/
def replay (records : List Record) (s : State) : ReplayEnd := replayFrom records ⟨0, 0⟩ s

/-! ### The reporter (R88, R89) -/

/-- A report: the raw counts, and the exact rate in percent, none where it is undefined. -/
structure Report where
  branchCount : Nat
  mispredictCount : Nat
  rate : Option ℚ
  deriving DecidableEq, Repr

/-- The report of a run: no division for an empty trace (R89), else 100 × mispredictCount / branchCount (R88). -/
def report (c : Counts) : Report where
  branchCount := c.branchCount
  mispredictCount := c.mispredictCount
  rate := if c.branchCount = 0 then none else some (100 * (c.mispredictCount : ℚ) / (c.branchCount : ℚ))

/-- The digits the reporter displays, as an integer count of units of the last displayed decimal. The precision and the
rounding are OPEN (R88): two opaque constants of Config (log 11). -/
def displayedRate (rate : ℚ) : ℤ := Config.reportRounding (rate * 10 ^ Config.reportDecimals)

end Sys2Proof.Machine
end

