-- ==== Sys2Proof/Safety.lean ====
section
/-! DEFINITION. The terms claims are stated in: a running block, the invariant of reachable states, the states an error
leaves, and the host's protocol. -/

namespace Sys2Proof.Machine

/-- `s` holds the block `b`, and it accepts requests (STATUS.FAULT = 0). -/
def Running (s : State) (b : Block) : Prop := s.block = some b ∧ b.status.fault = false

/-- The next input that `s` takes is this construction, with `rest` behind it: it is the oldest input, or the oldest but for
words that no running block is there to accept (R83, R93). -/
def ReachesConstruction (s : State) (code : BitVec 2) (memLimit : Nat) (rest : List Input) : Prop :=
  ∃ sent : List Input, s.inputs = sent ++ .construct code memLimit :: rest ∧ (∀ x ∈ sent, ∃ w, x = .send w) ∧
    (sent = [] ∨ ∀ b, ¬ Running s b)

/-- The canonical form of a sparse array over indices below `n`: indices strictly rising, each in range, no pair holding
the fill. -/
abbrev ArrWf {α : Type} (d : α) (n : Nat) (l : List (Nat × α)) : Prop :=
  l.Pairwise (fun p q => p.1 < q.1) ∧ ∀ p ∈ l, p.1 < n ∧ p.2 ≠ d

/-- A counter table is canonical, and blank where the VARIANT does not have it (R16, R17). -/
abbrev Table.Wf (b : Block) (t : TableName) : Prop :=
  ArrWf (tableFill t) (entries b) (tableOf b t) ∧ (b.cfg.variant.hasTable t = false → tableOf b t = [])

/-- LHT is canonical, and blank where the VARIANT does not have it (R16, R19). -/
abbrev HistoryTable.Wf (b : Block) : Prop :=
  ArrWf historyFill (entries b) b.lht ∧ (b.cfg.variant.hasLht = false → b.lht = [])

/-- STATUS holds one of its three legal values: running with NONE, or faulted with an error of a request (R22, R74). -/
abbrev Status.Wf (x : Status) : Prop :=
  (x.fault = false ∧ x.err = .noError) ∨ (x.fault = true ∧ (x.err = .illegalRequest ∨ x.err = .indexRange))

/-- The invariant of a constructed block: MASK = N - 1 (R7, R21), a legal STATUS, canonical tables, and nothing in an
element the VARIANT does not have. -/
abbrev Block.Wf (b : Block) : Prop :=
  b.cfg.mask.toNat = entries b - 1 ∧ Status.Wf b.status ∧
  Table.Wf b .pt ∧ Table.Wf b .lpt ∧ Table.Wf b .gpt ∧ Table.Wf b .cht ∧
  HistoryTable.Wf b ∧ (b.cfg.variant.hasGhr = false → b.ghr = 0)

/-- The invariant of a state: it is that of its block, where there is one. -/
abbrev State.Wf (s : State) : Prop := ∀ b ∈ s.block, Block.Wf b

/-- CFG.MASK is the mask of CFG.LOG2_N, the first clause of `Block.Wf` (R7, R21). -/
abbrev MaskValid (b : Block) : Prop := b.cfg.mask.toNat = entries b - 1

/-- `t` is a table of the block `b`. -/
abbrev HasTable (b : Block) (t : TableName) : Prop := b.cfg.variant.hasTable t = true

/-- The value of a counter trained on an outcome: one up to at most 3, or one down to at least 0 (R12, R50). -/
def trainedValue (c : Counter) (o : Bool) : Nat := if o then min (c.toNat + 1) 3 else c.toNat - 1

/-- The engine word is illegal: OP = 0b1x, or OP = 0b00 with O = 1 (R39). -/
def IllegalWord (w : ReqWord) : Prop :=
  w.getLsbD 34 = true ∨ (w.getLsbD 34 = false ∧ w.getLsbD 33 = false ∧ w.getLsbD 32 = true)

/-- The state after a running block raised `e` with the response `r`: STATUS and the response, nothing else (R78). -/
def raised (s : State) (b : Block) (e : Err) (r : Response) : State :=
  { s with block := some { b with status := { fault := true, err := e } }, response := some r }

/-- Two blocks that differ at most in the history bits at positions k and up (R24, R57, R72). -/
def SameLowHistory (b c : Block) : Prop :=
  b.cfg = c.cfg ∧ b.status = c.status ∧ b.pt = c.pt ∧ b.lpt = c.lpt ∧ b.gpt = c.gpt ∧ b.cht = c.cht ∧
  b.ghr % entries b = c.ghr % entries b ∧ ∀ j, readHist b j % entries b = readHist c j % entries b

/-- Two states with the same inputs and answers whose blocks, where there is one, differ at most in the history bits at
positions k and up. -/
def SameButHighHistory (s t : State) : Prop :=
  s.inputs = t.inputs ∧ s.response = t.response ∧
  ((s.block = none ∧ t.block = none) ∨
    ∃ b c, s.block = some b ∧ t.block = some c ∧ MaskValid b ∧ SameLowHistory b c)

/-- The host keeps the per-record protocol: PREDICT then TRAIN of the same pc, nothing between (R95, R96). The block does
not check it (R98). -/
def followsProtocol : List Input → Bool
  | [] => true
  | .send (.request p) :: .send (.request t) :: rest =>
    reqOp p = 0b00#2 && !reqOutcome p && reqOp t = 0b01#2 && reqPc p = reqPc t && followsProtocol rest
  | _ => false

end Sys2Proof.Machine
end

