-- ==== Sys2Proof/Certificates/Slice0/Obligations.lean ====
section
/-! DEFINITION. The statements for the provers. Response words and request words are written out here, bit by bit, and
indices as remainders, so that a statement does not merely repeat the definition it is about. -/

open Sys2Proof Sys2Proof.Machine

/-! ### Words (spec/30_encoding.md) -/

/-- The words of 95_test_vectors.md 2.2 and 2.4 decode to the requests listed there. -/
def Obligations.DecodeReadsTheWordsOfTheSpec : Prop :=
  decode .gshare (.request 0x000000010#35) = .gsharePredict 0x10#32 ∧
  decode .bimodal (.request 0x0FFFFFFFF#35) = .bimodalPredict 0xFFFFFFFF#32 ∧
  decode .tournament (.request 0x000000010#35) = .tournamentPredict 0x10#32 ∧
  decode .gshare (.request 0x200000010#35) = .gshareTrain 0x10#32 false ∧
  decode .bimodal (.request 0x300000010#35) = .bimodalTrain 0x10#32 true ∧
  decode .tournament (.request 0x2FFFFFFFF#35) = .tournamentTrain 0xFFFFFFFF#32 false ∧
  decode .bimodal (.request 0x100000010#35) = .illegalPredictO1 0x10#32 ∧
  decode .gshare (.request 0x400000000#35) = .illegalOpReserved 0#34 ∧
  decode .tournament (.request 0x7FFFFFFFF#35) = .illegalOpReserved 0x3FFFFFFFF#34 ∧
  decode .gshare (.port .pt 0x000000002#34) = .ctGet .pt 2#32 ∧
  decode .bimodal (.port .pt 0x1FFFFFFFF#34) = .ctInc .pt 0xFFFFFFFF#32 ∧
  decode .tournament (.port .cht 0x200000002#34) = .ctDec .cht 2#32 ∧
  decode .tournament (.port .lpt 0x300000009#34) = .illegalCtopReserved .lpt 9#32

/-- Decoding the encoding of a request that exists on the block gives it back, for every constructor and operand. -/
def Obligations.EncodeThenDecodeGivesTheRequestBack : Prop :=
  ∀ (v : Variant) (i : Instr), i.wellFormed v = true → decode v (encode i) = i

/-- Every word on an interface the block has is one request of that block, and its only encoding is that word. -/
def Obligations.EveryWordIsTheEncodingOfOneRequest : Prop :=
  ∀ (v : Variant) (x : Wire), x.wellFormed v = true →
    (decode v x).wellFormed v = true ∧ encode (decode v x) = x ∧
    ∀ i : Instr, i.wellFormed v = true → encode i = x → i = decode v x

/-- R39 with R38: the words with OP = 1x, or OP = 00 and O = 1, raise ILLEGAL_REQUEST and change nothing but STATUS;
every other word is the PREDICT or the TRAIN of the block's engine. -/
def Obligations.IllegalWordsAreExactlyTheReservedOnes : Prop :=
  ∀ (s : State) (b : Block) (w : ReqWord) (rest : List Input),
    Running s b → s.inputs = .send (.request w) :: rest →
    (IllegalWord w →
      step s = .next (raised { s with inputs := rest } b .illegalRequest (.engine 0b010#3))) ∧
    (¬ IllegalWord w →
      ∃ pc : Pc, (w = 0b00#2 ++ 0#1 ++ pc ∧ decode b.cfg.variant (.request w) = predictInstr b.cfg.variant pc) ∨
        ∃ o : Bool, w = 0b01#2 ++ BitVec.ofBool o ++ pc ∧
          decode b.cfg.variant (.request w) = trainInstr b.cfg.variant pc o)

/-- R42: what every line of the syntax sends, for every operand, `step` being two words, and six lines of text read. To which
table's port a `ct.` line goes, and where blanks may stand, is the model's choice (log 10). -/
def Obligations.AssemblerSendsTheWordsOfTheSyntax : Prop :=
  (∀ t pc, assemble t (.predict pc) = [.send (.request (0b00#2 ++ 0b0#1 ++ pc))]) ∧
  (∀ t pc o, assemble t (.train pc o) = [.send (.request (0b01#2 ++ (if o then 0b1#1 else 0b0#1) ++ pc))]) ∧
  (∀ t index, assemble t (.ctGet index) = [.send (.port t (0b00#2 ++ index))]) ∧
  (∀ t index, assemble t (.ctInc index) = [.send (.port t (0b01#2 ++ index))]) ∧
  (∀ t index, assemble t (.ctDec index) = [.send (.port t (0b10#2 ++ index))]) ∧
  (∀ t n, assemble t (.config .gshare n) = [.construct 0b00#2 n]) ∧
  (∀ t n, assemble t (.config .bimodal n) = [.construct 0b01#2 n]) ∧
  (∀ t n, assemble t (.config .tournament n) = [.construct 0b10#2 n]) ∧
  (∀ t pc o, assemble t (.step pc o) =
    [.send (.request (0b00#2 ++ 0b0#1 ++ pc)), .send (.request (0b01#2 ++ (if o then 0b1#1 else 0b0#1) ++ pc))]) ∧
  (∀ t w, assemble t (.word w) = [.send (.request w)]) ∧
  (∀ t, assemble t (.predict 0x10#32) = [.send (.request 0x000000010#35)]) ∧
  (∀ t, assemble t (.train 0x10#32 true) = [.send (.request 0x300000010#35)]) ∧
  (∀ t, assemble t (.train 0x10#32 false) = [.send (.request 0x200000010#35)]) ∧
  readLine "step 0x10, t ; one record".toList = .line (.step 0x10#32 true) ∧
  readLine ".config TOURNAMENT, 8".toList = .line (.config .tournament 8) ∧
  readLine ".word 0x400000001".toList = .line (.word 0x400000001#35) ∧
  readLine "ct.get 5".toList = .line (.ctGet 5#32) ∧
  readLine "   ; no records".toList = .blank ∧
  readLine "train 0x10".toList = .malformed

/-! ### One step (spec/20_memory.md, spec/70_reset_and_hazards.md) -/

/-- A step of a running block takes the oldest word and runs the request that word decodes to under the block's VARIANT. A
faulted block's step is what it would be had the word not been sent: no response, no change (R83, I17; log 5). -/
def Obligations.StepRunsTheDecodedRequest : Prop :=
  ∀ (s : State) (b : Block) (x : Wire) (rest : List Input),
    s.block = some b → s.inputs = .send x :: rest →
    (b.status.fault = false → step s = exec (decode b.cfg.variant x) { s with inputs := rest }) ∧
    (b.status.fault = true → step s = step { s with inputs := rest })

/-- With nothing sent, a running block keeps its state. The model's choice (log 4): the spec gives the block no step
without a request. -/
def Obligations.RunningBlockWaitsWithoutChange : Prop :=
  ∀ (s : State) (b : Block), Running s b → s.inputs = [] → step s = .next s

/-- R78: a faulted block accepts no request, so no request of any kind has an effect there. That a step with no construction
waiting stops, also with nothing sent, is the model's reading of "no further step" (DEDUCED, log 5). -/
def Obligations.FaultedBlockAcceptsNoRequest : Prop :=
  ∀ (s : State) (b : Block), s.block = some b → b.status.fault = true →
    (∀ i : Instr, exec i s = .fault .blockFaulted) ∧
    ((∀ code n, .construct code n ∉ s.inputs) → step s = .fault .blockFaulted)

/-- R75: with no block, since construction raised CONFIG_ERROR, no request is carried out. That a step with no construction
waiting stops, also with nothing sent, is the model's reading (DEDUCED, log 5). -/
def Obligations.NoRequestWithoutABlock : Prop :=
  ∀ (s : State), s.block = none →
    (∀ i : Instr, exec i s = .fault .noBlock) ∧
    ((∀ code n, .construct code n ∉ s.inputs) → step s = .fault .noBlock)

/-- No step meets an instruction without a meaning or of another engine: a step refuses only a port word for a table the
block does not have, and a construction above 2^32. -/
def Obligations.StepRefusesOnlyWhatTheBlockLacks : Prop :=
  ∀ (s : State) (r : Refusal), step s = .refused r →
    (∃ b t w rest, Running s b ∧ s.inputs = .send (.port t w) :: rest ∧
      b.cfg.variant.hasTable t = false ∧ r = .tableNotBuilt t) ∨
    (∃ code n rest, ReachesConstruction s code n rest ∧ 2 ^ 32 < n ∧ r = .memLimitAbove2Pow32)

/-- R83, R93: a construction can come at any time. It is the next thing a step takes, as the oldest input, and also behind
words sent to a faulted or absent block, which get no response and change nothing (I17; log 5). -/
def Obligations.ConstructionIsReachedAtAnyTime : Prop :=
  ∀ (s : State) (code : BitVec 2) (n : Nat) (rest : List Input), ReachesConstruction s code n rest →
    step s = construct code n { s with inputs := rest }

/-! ### Construction (spec/60_exceptions.md R75, spec/70_reset_and_hazards.md R91 to R93) -/

/-- R75, with R35's codes: the three outcomes of construction, in the order of the spec's checks: CONFIG_ERROR for the
reserved code or a MEM_LIMIT that is no power of two, leaving no block; a refusal for a power of two above 2^32; else a
block. That an earlier block is gone after CONFIG_ERROR is the model's reading (log 6). -/
def Obligations.ConstructionChecksItsArguments : Prop :=
  ∀ (code : BitVec 2) (n : Nat) (s : State),
    ((code = 0b11#2 ∨ ¬ ∃ k, n = 2 ^ k) →
      construct code n s = .next { s with block := none, response := some (.construction .configError) }) ∧
    (∀ k, code ≠ 0b11#2 → n = 2 ^ k → 32 < k → construct code n s = .refused .memLimitAbove2Pow32) ∧
    (∀ k, code ≠ 0b11#2 → n = 2 ^ k → k ≤ 32 →
      ∃ b, construct code n s = .next { s with block := some b, response := some (.construction .noError) } ∧
        b.cfg.variant = (if code = 0b00#2 then .gshare else if code = 0b01#2 then .bimodal else .tournament) ∧
        b.cfg.log2N.val = k)

/-- R92, and R91 and R93 with it: whatever the state before, a fault included, a construction that succeeds sets every
element: CFG from the arguments, STATUS 0, PT, LPT and GPT 0, CHT 2, GHR and LHT 0. -/
def Obligations.ConstructionSetsEveryElement : Prop :=
  ∀ (s : State) (code : BitVec 2) (v : Variant) (k : Nat) (rest : List Input), k ≤ 32 →
    (code, v) ∈ [(0b00#2, Variant.gshare), (0b01#2, Variant.bimodal), (0b10#2, Variant.tournament)] →
    s.inputs = .construct code (2 ^ k) :: rest →
    ∃ b : Block, step s = .next { block := some b, inputs := rest, response := some (.construction .noError) } ∧
      b.cfg.variant = v ∧ b.cfg.log2N.val = k ∧ b.cfg.mask.toNat = 2 ^ k - 1 ∧
      b.status.fault = false ∧ b.status.err = .noError ∧
      (∀ i, readCtr b .pt i = 0#2 ∧ readCtr b .lpt i = 0#2 ∧ readCtr b .gpt i = 0#2 ∧ readCtr b .cht i = 2#2) ∧
      b.ghr = 0 ∧ ∀ i, readHist b i = 0

/-- State.reset is what constructing TOURNAMENT (code 0b10) with N = 4 leaves. Which arguments is the model's choice
(log 1). -/
def Obligations.ResetIsAConstruction : Prop :=
  ∀ s : State, s.inputs = [] → construct 0b10#2 4 s = .next State.reset

/-! ### The invariant -/

/-- The invariant holds at reset. -/
def Obligations.ResetMeetsTheInvariant : Prop := State.reset.Wf

/-- Every step keeps the invariant: the mask stays N - 1, STATUS legal, every table canonical over [0, N), and what the
VARIANT does not have stays blank. -/
def Obligations.StepKeepsTheInvariant : Prop :=
  ∀ s t : State, s.Wf → step s = .next t → t.Wf

/-- Two canonical arrays that read the same everywhere are equal data, counter tables and history tables alike. -/
def Obligations.EqualReadsAreEqualTables : Prop :=
  (∀ (d : Counter) (n : Nat) (l m : Table), ArrWf d n l → ArrWf d n m →
    (∀ i, arrRead d l i = arrRead d m i) → l = m) ∧
  (∀ (n : Nat) (l m : HistoryTable), ArrWf 0 n l → ArrWf 0 n m → (∀ i, arrRead 0 l i = arrRead 0 m i) → l = m)

/-! ### Primitives (spec/00_scope.md R12) -/

/-- R12: the five primitives, for every counter, outcome and history. -/
def Obligations.PrimitivesSaturateAndShift : Prop :=
  (∀ c : Counter, (satInc c).toNat = if c.toNat < 3 then c.toNat + 1 else 3) ∧
  (∀ c : Counter, (satDec c).toNat = if 0 < c.toNat then c.toNat - 1 else 0) ∧
  (∀ (c : Counter) (o : Bool), ctrUpdate c o = if o then satInc c else satDec c) ∧
  (∀ c : Counter, taken c = true ↔ 2 ≤ c.toNat) ∧
  (∀ (h : History) (o : Bool), shiftIn h o = 2 * h + (if o then 1 else 0) ∧
    (shiftIn h o).testBit 0 = o ∧ ∀ n, (shiftIn h o).testBit (n + 1) = h.testBit n)

/-! ### The counter-table port (spec/40_counter_table.md) -/

/-- R47: CT.GET returns the entry and writes nothing; an index at or above N raises INDEX_RANGE (R46). -/
def Obligations.CounterGetReturnsTheEntry : Prop :=
  ∀ (s : State) (b : Block) (t : TableName) (index : BitVec 32), Running s b → HasTable b t →
    decode b.cfg.variant (.port t (0b00#2 ++ index)) = .ctGet t index ∧
    (index.toNat < entries b →
      exec (.ctGet t index) s =
        .next { s with response := some (.port (0b00#2 ++ readCtr b t index.toNat)) }) ∧
    (entries b ≤ index.toNat →
      exec (.ctGet t index) s = .next (raised s b .indexRange (.port 0b1000#4)))

/-- R48: CT.INC moves the one entry up, saturating at 3, and writes nothing else; an index at or above N raises
INDEX_RANGE (R46). -/
def Obligations.CounterIncMovesOneEntryUp : Prop :=
  ∀ (s : State) (b : Block) (t : TableName) (index : BitVec 32), Running s b → HasTable b t →
    decode b.cfg.variant (.port t (0b01#2 ++ index)) = .ctInc t index ∧
    (index.toNat < entries b →
      ∃ l, exec (.ctInc t index) s =
          .next { s with block := some (setTable b t l), response := some (.port 0b0000#4) } ∧
        (∀ j, j ≠ index.toNat → readCtr (setTable b t l) t j = readCtr b t j) ∧
        (readCtr (setTable b t l) t index.toNat).toNat =
          if (readCtr b t index.toNat).toNat < 3 then (readCtr b t index.toNat).toNat + 1 else 3) ∧
    (entries b ≤ index.toNat →
      exec (.ctInc t index) s = .next (raised s b .indexRange (.port 0b1000#4)))

/-- R49: CT.DEC moves the one entry down, saturating at 0, and writes nothing else; an index at or above N raises
INDEX_RANGE (R46). -/
def Obligations.CounterDecMovesOneEntryDown : Prop :=
  ∀ (s : State) (b : Block) (t : TableName) (index : BitVec 32), Running s b → HasTable b t →
    decode b.cfg.variant (.port t (0b10#2 ++ index)) = .ctDec t index ∧
    (index.toNat < entries b →
      ∃ l, exec (.ctDec t index) s =
          .next { s with block := some (setTable b t l), response := some (.port 0b0000#4) } ∧
        (∀ j, j ≠ index.toNat → readCtr (setTable b t l) t j = readCtr b t j) ∧
        (readCtr (setTable b t l) t index.toNat).toNat =
          if 0 < (readCtr b t index.toNat).toNat then (readCtr b t index.toNat).toNat - 1 else 0) ∧
    (entries b ≤ index.toNat →
      exec (.ctDec t index) s = .next (raised s b .indexRange (.port 0b1000#4)))

/-- R46, R79: the index check comes before any read or write, and decoding before the index check. With an index at or above
N, CT.GET, CT.INC and CT.DEC each raise INDEX_RANGE, the reserved CTOP raises ILLEGAL_REQUEST, and the tables and
histories stay as they were. -/
def Obligations.OutOfRangeIndexRaisesIndexRange : Prop :=
  ∀ (s : State) (b : Block) (t : TableName) (index : BitVec 32), Running s b → HasTable b t →
    entries b ≤ index.toNat →
    (∀ i ∈ [Instr.ctGet t index, Instr.ctInc t index, Instr.ctDec t index],
      exec i s = .next (raised s b .indexRange (.port 0b1000#4))) ∧
    ∀ ctop : BitVec 2, exec (decode b.cfg.variant (.port t (ctop ++ index))) s =
      .next (if ctop = 0b11#2 then raised s b .illegalRequest (.port 0b0100#4)
        else raised s b .indexRange (.port 0b1000#4))

/-- R76, with R79 for the port: each illegal request raises ILLEGAL_REQUEST whatever its free bits (a port index is not
checked), writes nothing but STATUS, and answers ERR = 1 with PRED or VAL 0. -/
def Obligations.IllegalRequestsRaiseAndWriteNothing : Prop :=
  ∀ (s : State) (b : Block), Running s b →
    (∀ bits, exec (.illegalPredictO1 bits) s = .next (raised s b .illegalRequest (.engine 0b010#3))) ∧
    (∀ bits, exec (.illegalOpReserved bits) s = .next (raised s b .illegalRequest (.engine 0b010#3))) ∧
    (∀ t bits, HasTable b t →
      exec (.illegalCtopReserved t bits) s = .next (raised s b .illegalRequest (.port 0b0100#4)))

/-! ### Gshare (spec/41_gshare.md) -/

/-- R54: GSHARE.PREDICT answers taken exactly when PT at (pc mod N) XOR (GHR mod N) is 2 or more, and writes nothing; the
same word with O = 1 raises ILLEGAL_REQUEST. -/
def Obligations.GsharePredictReadsTheIndexedCounter : Prop :=
  ∀ (s : State) (b : Block) (pc : Pc), Running s b → MaskValid b → b.cfg.variant = .gshare →
    decode b.cfg.variant (.request (0b00#2 ++ 0#1 ++ pc)) = .gsharePredict pc ∧
    exec (.gsharePredict pc) s = .next { s with response := some (.engine (0b00#2 ++ BitVec.ofBool
      (decide (2 ≤ (readCtr b .pt ((pc.toNat % entries b) ^^^ (b.ghr % entries b))).toNat)))) } ∧
    exec (decode b.cfg.variant (.request (0b00#2 ++ 1#1 ++ pc))) s =
      .next (raised s b .illegalRequest (.engine 0b010#3))

/-- R55: GSHARE.TRAIN trains the one counter at (pc mod N) XOR (GHR mod N), shifts the outcome into GHR, writes nothing
else, and answers 0. -/
def Obligations.GshareTrainWritesOneCounterAndHistory : Prop :=
  ∀ (s : State) (b : Block) (pc : Pc) (o : Bool), Running s b → MaskValid b → b.cfg.variant = .gshare →
    decode b.cfg.variant (.request (0b01#2 ++ BitVec.ofBool o ++ pc)) = .gshareTrain pc o ∧
    ∃ pt', exec (.gshareTrain pc o) s = .next { s with
        block := some { b with pt := pt', ghr := 2 * b.ghr + (if o then 1 else 0) },
        response := some (.engine 0b000#3) } ∧
      ∀ j, (arrRead 0#2 pt' j).toNat =
        if j = (pc.toNat % entries b) ^^^ (b.ghr % entries b) then trainedValue (readCtr b .pt j) o
        else (readCtr b .pt j).toNat

/-! ### Bimodal (spec/42_bimodal.md) -/

/-- R61: BIMODAL.PREDICT answers taken exactly when PT at pc mod N is 2 or more, and writes nothing; the same word with
O = 1 raises ILLEGAL_REQUEST. -/
def Obligations.BimodalPredictReadsTheIndexedCounter : Prop :=
  ∀ (s : State) (b : Block) (pc : Pc), Running s b → MaskValid b → b.cfg.variant = .bimodal →
    decode b.cfg.variant (.request (0b00#2 ++ 0#1 ++ pc)) = .bimodalPredict pc ∧
    exec (.bimodalPredict pc) s = .next { s with response := some (.engine (0b00#2 ++ BitVec.ofBool
      (decide (2 ≤ (readCtr b .pt (pc.toNat % entries b)).toNat)))) } ∧
    exec (decode b.cfg.variant (.request (0b00#2 ++ 1#1 ++ pc))) s =
      .next (raised s b .illegalRequest (.engine 0b010#3))

/-- R62: BIMODAL.TRAIN trains the one counter at pc mod N, writes nothing else, and answers 0. -/
def Obligations.BimodalTrainWritesOneCounter : Prop :=
  ∀ (s : State) (b : Block) (pc : Pc) (o : Bool), Running s b → MaskValid b → b.cfg.variant = .bimodal →
    decode b.cfg.variant (.request (0b01#2 ++ BitVec.ofBool o ++ pc)) = .bimodalTrain pc o ∧
    ∃ pt', exec (.bimodalTrain pc o) s = .next { s with
        block := some { b with pt := pt' }, response := some (.engine 0b000#3) } ∧
      ∀ j, (arrRead 0#2 pt' j).toNat =
        if j = pc.toNat % entries b then trainedValue (readCtr b .pt j) o else (readCtr b .pt j).toNat

/-- R63: two pcs with the same low k bits share their entry: both requests have the same effect for either, and the PREDICT
of one after the TRAIN of the other answers from the entry just trained. -/
def Obligations.BimodalAliasesShareTheirCounter : Prop :=
  ∀ (s : State) (b : Block) (pc pc' : Pc), s.block = some b → MaskValid b →
    pc.toNat % entries b = pc'.toNat % entries b →
    exec (.bimodalPredict pc) s = exec (.bimodalPredict pc') s ∧
    (∀ o, exec (.bimodalTrain pc o) s = exec (.bimodalTrain pc' o) s) ∧
    (b.status.fault = false → b.cfg.variant = .bimodal → ∀ o, ∃ t, exec (.bimodalTrain pc o) s = .next t ∧
      exec (.bimodalPredict pc') t = .next { t with response := some (.engine (0b00#2 ++ BitVec.ofBool
        (decide (2 ≤ trainedValue (readCtr b .pt (pc'.toNat % entries b)) o)))) })

/-- R64, and C2: a TRAIN that saturates an entry leaves that entry's table as it was. So it leaves a Bimodal block exactly as
it was, and a Gshare block but for GHR. A Tournament block still shifts GHR and the slot's local history, and keeps each
table whose own entry saturates, whatever the others do. -/
def Obligations.SaturatingTrainKeepsItsTable : Prop :=
  ∀ (s : State) (b : Block) (pc : Pc) (o : Bool), Running s b → Block.Wf b →
    (b.cfg.variant = .bimodal → (readCtr b .pt (pc.toNat % entries b)).toNat = (if o then 3 else 0) →
      exec (.bimodalTrain pc o) s = .next { s with response := some (.engine 0b000#3) }) ∧
    (b.cfg.variant = .gshare →
      (readCtr b .pt ((pc.toNat % entries b) ^^^ (b.ghr % entries b))).toNat = (if o then 3 else 0) →
      exec (.gshareTrain pc o) s = .next { s with
        block := some { b with ghr := 2 * b.ghr + (if o then 1 else 0) }, response := some (.engine 0b000#3) }) ∧
    (b.cfg.variant = .tournament → ∀ slot li gi, slot = pc.toNat % entries b →
      li = (readHist b slot ^^^ pc.toNat) % entries b → gi = (pc.toNat % entries b) ^^^ (b.ghr % entries b) →
      ∃ b', exec (.tournamentTrain pc o) s = .next { s with block := some b', response := some (.engine 0b000#3) } ∧
        b'.ghr = 2 * b.ghr + (if o then 1 else 0) ∧
        readHist b' slot = 2 * readHist b slot + (if o then 1 else 0) ∧
        ((readCtr b .lpt li).toNat = (if o then 3 else 0) → b'.lpt = b.lpt) ∧
        ((readCtr b .gpt gi).toNat = (if o then 3 else 0) → b'.gpt = b.gpt) ∧
        ∀ lp gp, lp = decide (2 ≤ (readCtr b .lpt li).toNat) → gp = decide (2 ≤ (readCtr b .gpt gi).toNat) →
          (lp ≠ o ∧ gp = o ∧ (readCtr b .cht slot).toNat = 3) ∨
            (lp = o ∧ gp ≠ o ∧ (readCtr b .cht slot).toNat = 0) → b'.cht = b.cht)

/-! ### Tournament (spec/43_tournament.md) -/

/-- R68 with R66 and R67: TOURNAMENT.PREDICT answers the global prediction when the chooser entry is 2 or more and the
local one otherwise, and writes nothing; the same word with O = 1 raises ILLEGAL_REQUEST. -/
def Obligations.TournamentPredictChoosesGlobalOrLocal : Prop :=
  ∀ (s : State) (b : Block) (pc : Pc) (slot li gi : Nat), Running s b → MaskValid b → b.cfg.variant = .tournament →
    slot = pc.toNat % entries b → li = (readHist b slot ^^^ pc.toNat) % entries b →
    gi = (pc.toNat % entries b) ^^^ (b.ghr % entries b) →
    decode b.cfg.variant (.request (0b00#2 ++ 0#1 ++ pc)) = .tournamentPredict pc ∧
    exec (.tournamentPredict pc) s = .next { s with response := some (.engine (0b00#2 ++ BitVec.ofBool
      (if 2 ≤ (readCtr b .cht slot).toNat then decide (2 ≤ (readCtr b .gpt gi).toNat)
       else decide (2 ≤ (readCtr b .lpt li).toNat)))) } ∧
    exec (decode b.cfg.variant (.request (0b00#2 ++ 1#1 ++ pc))) s =
      .next (raised s b .illegalRequest (.engine 0b010#3))

/-- R69 with R66, R67 and R70: TOURNAMENT.TRAIN trains LPT[li] and GPT[gi], shifts the outcome into LHT[s] and GHR, moves
CHT[s] up when only the global prediction was right and down when only the local one was, all from the state before,
writes nothing else, and answers 0. -/
def Obligations.TournamentTrainWritesItsFiveArrays : Prop :=
  ∀ (s : State) (b : Block) (pc : Pc) (o : Bool) (slot li gi : Nat) (lp gp : Bool),
    Running s b → MaskValid b → b.cfg.variant = .tournament →
    slot = pc.toNat % entries b → li = (readHist b slot ^^^ pc.toNat) % entries b →
    gi = (pc.toNat % entries b) ^^^ (b.ghr % entries b) →
    lp = decide (2 ≤ (readCtr b .lpt li).toNat) → gp = decide (2 ≤ (readCtr b .gpt gi).toNat) →
    decode b.cfg.variant (.request (0b01#2 ++ BitVec.ofBool o ++ pc)) = .tournamentTrain pc o ∧
    ∃ lpt' gpt' cht' lht', exec (.tournamentTrain pc o) s = .next { s with
        block := some { b with lpt := lpt', gpt := gpt', cht := cht', lht := lht',
                               ghr := 2 * b.ghr + (if o then 1 else 0) },
        response := some (.engine 0b000#3) } ∧
      (∀ j, (arrRead 0#2 lpt' j).toNat =
        if j = li then trainedValue (readCtr b .lpt j) o else (readCtr b .lpt j).toNat) ∧
      (∀ j, (arrRead 0#2 gpt' j).toNat =
        if j = gi then trainedValue (readCtr b .gpt j) o else (readCtr b .gpt j).toNat) ∧
      (∀ j, (arrRead 2#2 cht' j).toNat =
        if j = slot ∧ lp ≠ o ∧ gp = o then min ((readCtr b .cht j).toNat + 1) 3
        else if j = slot ∧ lp = o ∧ gp ≠ o then (readCtr b .cht j).toNat - 1
        else (readCtr b .cht j).toNat) ∧
      (∀ j, arrRead 0 lht' j = if j = slot then 2 * readHist b j + (if o then 1 else 0) else readHist b j)

/-- R70: the chooser update, row by row, for every counter value. -/
def Obligations.ChooserMovesTowardsTheOneThatWasRight : Prop :=
  ∀ (c : Counter) (lp gp o : Bool),
    (lp ≠ o → gp = o → (chooserUpdate c lp gp o).toNat = min (c.toNat + 1) 3) ∧
    (lp = o → gp ≠ o → (chooserUpdate c lp gp o).toNat = c.toNat - 1) ∧
    (lp = o → gp = o → chooserUpdate c lp gp o = c) ∧
    (lp ≠ o → gp ≠ o → chooserUpdate c lp gp o = c)

/-! ### Rules of the whole machine -/

/-- R56: every index an engine forms, and the LHT slot, lies in [0, N). -/
def Obligations.EngineIndicesLieInRange : Prop :=
  ∀ (b : Block) (pc : Pc), MaskValid b →
    globalIndex b pc < entries b ∧ pcIndex b pc < entries b ∧ localIndex b pc < entries b

/-- R27, R53, R60, R66: the three index formulas, under the mask of the block's size. -/
def Obligations.IndexFormulasKeepTheLowBits : Prop :=
  ∀ (b : Block) (pc : Pc), MaskValid b →
    globalIndex b pc = (pc.toNat % entries b) ^^^ (b.ghr % entries b) ∧
    pcIndex b pc = pc.toNat % entries b ∧
    localIndex b pc = (readHist b (pc.toNat % entries b) % entries b) ^^^ (pc.toNat % entries b)

/-- R82, R56, R98: a running block carries out every legal engine word whatever was sent before it, and goes on running;
no word stops it, and none but an illegal one faults it. -/
def Obligations.LegalEngineWordsAlwaysComplete : Prop :=
  ∀ (s : State) (b : Block) (w : ReqWord) (rest : List Input),
    Running s b → s.inputs = .send (.request w) :: rest →
    ∃ t b', step s = .next t ∧ t.inputs = rest ∧ t.block = some b' ∧
      (b'.status.fault = true ↔ IllegalWord w)

/-- R40, R77: every engine request that completes answers RSP: ERR is 1 for an illegal word and 0 for every other (never 2
or 3), and PRED is 1 only for a PREDICT. -/
def Obligations.EngineResponseCarriesPredAndErr : Prop :=
  ∀ (s t : State) (b : Block) (w : ReqWord) (rest : List Input), Running s b →
    s.inputs = .send (.request w) :: rest → step s = .next t →
    ∃ r : RspWord, t.response = some (.engine r) ∧
      (IllegalWord w → r = 0b010#3) ∧ (¬ IllegalWord w → r.extractLsb' 1 2 = 0#2) ∧
      (r.getLsbD 0 = true → w.extractLsb' 32 3 = 0b000#3)

/-- R21, R32: no request writes CFG, and none touches what the host has sent after it. -/
def Obligations.RequestsNeverChangeTheConfiguration : Prop :=
  ∀ (i : Instr) (s t : State), exec i s = .next t →
    ∃ b b', s.block = some b ∧ t.block = some b' ∧ b'.cfg = b.cfg ∧ t.inputs = s.inputs

/-- R22, R78: a request that completes leaves STATUS as it was, or raises an error: then STATUS is FAULT = 1 with that
error's code and no table or history is written. -/
def Obligations.StatusChangesOnlyByAnErrorThatWritesNothing : Prop :=
  ∀ (i : Instr) (s t : State), exec i s = .next t →
    ∃ b b', s.block = some b ∧ t.block = some b' ∧
      (b'.status = b.status ∨
        ∃ e, (e = .illegalRequest ∨ e = .indexRange) ∧ b' = { b with status := { fault := true, err := e } } ∧
          t.respErr = some (if e = .illegalRequest then 1#2 else 2#2))

/-- R18, R19: GSHARE.TRAIN and TOURNAMENT.TRAIN shift their outcome into GHR, and TOURNAMENT.TRAIN into its slot of LHT; no
other request that completes writes either. -/
def Obligations.OnlyTrainShiftsTheHistories : Prop :=
  ∀ (i : Instr) (s t : State), exec i s = .next t →
    ∃ b b', s.block = some b ∧ t.block = some b' ∧
      (∀ pc o, i = .gshareTrain pc o ∨ i = .tournamentTrain pc o → b'.ghr = 2 * b.ghr + (if o then 1 else 0)) ∧
      ((∀ pc o, i ≠ .gshareTrain pc o ∧ i ≠ .tournamentTrain pc o) → b'.ghr = b.ghr) ∧
      (∀ pc o, i = .tournamentTrain pc o → ∀ j, readHist b' j =
        if j = pcIndex b pc then 2 * readHist b j + (if o then 1 else 0) else readHist b j) ∧
      ((∀ pc o, i ≠ .tournamentTrain pc o) → b'.lht = b.lht)

/-- R17, R30: only the TRAIN requests and CT.INC and CT.DEC write a table; every other request that completes leaves every
table and history as it was. -/
def Obligations.OnlyTrainIncAndDecWriteTables : Prop :=
  ∀ (i : Instr) (s t : State), exec i s = .next t →
    (∃ pc o, i = .gshareTrain pc o ∨ i = .bimodalTrain pc o ∨ i = .tournamentTrain pc o) ∨
    (∃ u x, i = .ctInc u x ∨ i = .ctDec u x) ∨
    ∃ b b', s.block = some b ∧ t.block = some b' ∧ (∀ u, tableOf b' u = tableOf b u) ∧
      b'.ghr = b.ghr ∧ b'.lht = b.lht

/-- R50, R73, the saturation law as a step: no request moves any counter by more than one, so none ever wraps. -/
def Obligations.NoCounterMovesByMoreThanOne : Prop :=
  ∀ (i : Instr) (s t : State), exec i s = .next t →
    ∃ b b', s.block = some b ∧ t.block = some b' ∧
      ∀ u j, (readCtr b' u j).toNat ≤ (readCtr b u j).toNat + 1 ∧
        (readCtr b u j).toNat ≤ (readCtr b' u j).toNat + 1

/-- R50: an engine's training of a counter is CT.INC at its index for a taken outcome and CT.DEC for a not-taken one: the
table the TRAIN leaves is the table the port request leaves. -/
def Obligations.TrainingIsThePortOperation : Prop :=
  ∀ (s : State) (b : Block) (pc : Pc) (o : Bool) (i : Instr) (u : TableName) (x : BitVec 32),
    Running s b → MaskValid b →
    ((i = .gshareTrain pc o ∧ b.cfg.variant = .gshare ∧ u = .pt ∧ x.toNat = globalIndex b pc) ∨
     (i = .bimodalTrain pc o ∧ b.cfg.variant = .bimodal ∧ u = .pt ∧ x.toNat = pcIndex b pc) ∨
     (i = .tournamentTrain pc o ∧ b.cfg.variant = .tournament ∧ u = .lpt ∧ x.toNat = localIndex b pc) ∨
     (i = .tournamentTrain pc o ∧ b.cfg.variant = .tournament ∧ u = .gpt ∧ x.toNat = globalIndex b pc)) →
    ∃ t t' c c', exec i s = .next t ∧ exec (if o then .ctInc u x else .ctDec u x) s = .next t' ∧
      t.block = some c ∧ t'.block = some c' ∧ tableOf c u = tableOf c' u

/-- R30, R58: a PREDICT that completes changes nothing but the answer, and sent again it gives the same answer. -/
def Obligations.PredictIsPureAndRepeatable : Prop :=
  ∀ (v : Variant) (pc : Pc) (s t : State), exec (predictInstr v pc) s = .next t →
    t.block = s.block ∧ t.inputs = s.inputs ∧ exec (predictInstr v pc) t = .next t

/-- R58: a TRAIN straight after a PREDICT does what it would have done without it, and the entries it changes are those the
PREDICT read. On Gshare and Bimodal the counter it changes holds what the answer said; on Tournament the answer is the one
the CHT, GPT and LPT entries of pc gave, and only those and the LHT slot that led to them can change. -/
def Obligations.TrainAgreesWithThePredictBeforeIt : Prop :=
  ∀ (v : Variant) (pc : Pc) (o : Bool) (s t : State), exec (predictInstr v pc) s = .next t →
    exec (trainInstr v pc o) t = exec (trainInstr v pc o) s ∧
    ∃ b b' u, s.block = some b ∧ exec (trainInstr v pc o) t = .next u ∧ u.block = some b' ∧
      (∀ j, readCtr b' .pt j ≠ readCtr b .pt j → t.pred = some (decide (2 ≤ (readCtr b .pt j).toNat))) ∧
      (v = .tournament → t.pred = some (if 2 ≤ (readCtr b .cht (pcIndex b pc)).toNat
        then decide (2 ≤ (readCtr b .gpt (globalIndex b pc)).toNat)
        else decide (2 ≤ (readCtr b .lpt (localIndex b pc)).toNat))) ∧
      (∀ j, readCtr b' .lpt j ≠ readCtr b .lpt j → j = localIndex b pc) ∧
      (∀ j, readCtr b' .gpt j ≠ readCtr b .gpt j → j = globalIndex b pc) ∧
      (∀ j, readCtr b' .cht j ≠ readCtr b .cht j → j = pcIndex b pc) ∧
      (∀ j, readHist b' j ≠ readHist b j → j = pcIndex b pc)

/-- R57, R72, R24: history bits at positions k and up reach no answer and no table: two states that differ only in them
take the same kind of step, to states that differ only in them. -/
def Obligations.HistoryBitsAboveKNeverMatter : Prop :=
  ∀ s t : State, SameButHighHistory s t →
    (∀ s', step s = .next s' → ∃ t', step t = .next t' ∧ SameButHighHistory s' t') ∧
    (∀ f, step s = .fault f → step t = .fault f) ∧
    (∀ r, step s = .refused r → step t = .refused r)

/-! ### The host harness (spec/60_exceptions.md R84 to R89) -/

/-- R84: after the count, five bytes make a record: pc most significant byte first, and taken for any non-zero flag. -/
def Obligations.TraceBytesMakeRecords : Prop :=
  ∀ (n0 n1 n2 n3 b0 b1 b2 b3 f : Byte) (rest : List Byte),
    ∃ r, parseTrace (n0 :: n1 :: n2 :: n3 :: b0 :: b1 :: b2 :: b3 :: f :: rest) =
        r :: parseTrace (n0 :: n1 :: n2 :: n3 :: rest) ∧
      r.pc.toNat = b0.toNat * 2 ^ 24 + b1.toNat * 2 ^ 16 + b2.toNat * 2 ^ 8 + b3.toNat ∧
      (r.outcome = true ↔ f ≠ 0)

/-- R85: a trace of 5m + r bytes after the count, r < 5, yields m records. -/
def Obligations.PartialFinalRecordIsDiscarded : Prop :=
  ∀ (bytes : List Byte) (m r : Nat), bytes.length = 4 + (5 * m + r) → r < 5 → (parseTrace bytes).length = m

/-- R86: one record of the loop is the PREDICT of its pc and then the TRAIN of its pc and outcome, with branchCount up by
one and mispredictCount up by one exactly on a miss. -/
def Obligations.ReplayRecordIsPredictThenTrain : Prop :=
  ∀ (s : State) (b : Block) (r : Record) (c : Counts), Running s b → s.inputs = [] →
    ∃ p s1 s2, exec (predictInstr b.cfg.variant r.pc) s = .next s1 ∧ s1.pred = some p ∧
      exec (trainInstr b.cfg.variant r.pc r.outcome) s1 = .next s2 ∧
      replayRecord r c s = .done
        { branchCount := c.branchCount + 1,
          mispredictCount := c.mispredictCount + (if p = r.outcome then 0 else 1) } s2

/-- R86, R87: from any running block, the loop over any trace ends DONE, never in a fault, having counted every record
once and at most as many misses, and leaves the block running under the same configuration. -/
def Obligations.ReplayAlwaysEndsDone : Prop :=
  ∀ (records : List Record) (s : State) (b : Block), Running s b → s.inputs = [] →
    ∃ c t b', replay records s = .done c t ∧ c.branchCount = records.length ∧
      c.mispredictCount ≤ c.branchCount ∧ Running t b' ∧ b'.cfg = b.cfg ∧ t.inputs = []

/-- R95, R96: on inputs that keep the per-record protocol a running block carries out every one, and is running at the
end. -/
def Obligations.ProtocolRunsToTheEnd : Prop :=
  ∀ (s : State) (b : Block), Running s b → followsProtocol s.inputs = true →
    ∃ t b', Host.Core.run core s.inputs.length s = .next t ∧ Running t b' ∧ b'.cfg = b.cfg ∧ t.inputs = []

/-- R88, R89: the rate is 100 × mispredictCount / branchCount exactly, and undefined, with no division, for an empty
trace, which reaches the block with no request. -/
def Obligations.ReportGivesTheExactRate : Prop :=
  (∀ c : Counts, c.branchCount ≠ 0 →
    ∃ q : ℚ, (report c).rate = some q ∧ q * (c.branchCount : ℚ) = 100 * (c.mispredictCount : ℚ)) ∧
  (∀ c : Counts, c.branchCount = 0 → (report c).rate = none) ∧
  (∀ c : Counts, (report c).branchCount = c.branchCount ∧ (report c).mispredictCount = c.mispredictCount) ∧
  (∀ s : State, replay [] s = .done { branchCount := 0, mispredictCount := 0 } s)
end

