-- ==== Sys2Proof/Laws/Arrays.lean ====
section
/-! SUPPORT. The laws of sparse arrays: what a read sees after a write, and that a write keeps the canonical form. -/

namespace Sys2Proof.Machine

@[simp] theorem arrRead_nil {α : Type} (d : α) (i : Nat) : arrRead d [] i = d := rfl

theorem arrRead_cons {α : Type} (d : α) (p : Nat × α) (l : List (Nat × α)) (i : Nat) :
    arrRead d (p :: l) i = if p.1 = i then p.2 else arrRead d l i := rfl

/-- An index no pair has reads the fill. -/
theorem arrRead_of_forall_ne {α : Type} (d : α) {l : List (Nat × α)} {i : Nat} (h : ∀ p ∈ l, p.1 ≠ i) :
    arrRead d l i = d := by
  induction l with
  | nil => rfl
  | cons p l ih =>
    rw [arrRead_cons, if_neg (h p (by simp))]
    exact ih fun q hq => h q (by simp [hq])

theorem arrRead_filter_ne {α : Type} (d : α) (l : List (Nat × α)) {i j : Nat} (h : j ≠ i) :
    arrRead d (l.filter (fun p => p.1 != i)) j = arrRead d l j := by
  induction l with
  | nil => rfl
  | cons p l ih =>
    by_cases hp : p.1 = i
    · rw [List.filter_cons_of_neg (by simp [hp]), ih, arrRead_cons, if_neg (by omega)]
    · rw [List.filter_cons_of_pos (by simp [hp]), arrRead_cons, arrRead_cons, ih]

theorem arrRead_insert_ne {α : Type} (d : α) (l : List (Nat × α)) (v : α) {i j : Nat} (h : j ≠ i) :
    arrRead d (arrInsert i v l) j = arrRead d l j := by
  induction l with
  | nil => simp [arrInsert, arrRead_cons, Ne.symm h]
  | cons p l ih =>
    rw [arrInsert]
    split
    · rw [arrRead_cons, if_neg (Ne.symm h)]
    · rw [arrRead_cons, arrRead_cons, ih]

theorem arrRead_insert_same {α : Type} (d : α) {l : List (Nat × α)} (v : α) {i : Nat} (h : ∀ p ∈ l, p.1 ≠ i) :
    arrRead d (arrInsert i v l) i = v := by
  induction l with
  | nil => simp [arrInsert, arrRead_cons]
  | cons p l ih =>
    rw [arrInsert]
    split
    · simp [arrRead_cons]
    · rw [arrRead_cons, if_neg (h p (by simp))]
      exact ih fun q hq => h q (by simp [hq])

/-- A read after a write to the same index gives the value written. -/
@[simp] theorem arrRead_write_same {α : Type} [DecidableEq α] (d : α) (l : List (Nat × α)) (i : Nat) (v : α) :
    arrRead d (arrWrite d l i v) i = v := by
  have hne : ∀ p ∈ l.filter (fun p => p.1 != i), p.1 ≠ i := by simp
  rw [arrWrite]
  split
  · next hv => rw [arrRead_of_forall_ne d hne, hv]
  · exact arrRead_insert_same d v hne

/-- A write leaves every other index alone. -/
theorem arrRead_write_ne {α : Type} [DecidableEq α] (d : α) (l : List (Nat × α)) (v : α) {i j : Nat} (h : j ≠ i) :
    arrRead d (arrWrite d l i v) j = arrRead d l j := by
  rw [arrWrite]
  split
  · exact arrRead_filter_ne d l h
  · rw [arrRead_insert_ne d _ v h, arrRead_filter_ne d l h]

theorem arrRead_write {α : Type} [DecidableEq α] (d : α) (l : List (Nat × α)) (i j : Nat) (v : α) :
    arrRead d (arrWrite d l i v) j = if j = i then v else arrRead d l j := by
  split
  · next h => rw [h, arrRead_write_same]
  · next h => exact arrRead_write_ne d l v h

theorem mem_arrInsert {α : Type} {i : Nat} {v : α} {l : List (Nat × α)} {p : Nat × α} :
    p ∈ arrInsert i v l ↔ p = (i, v) ∨ p ∈ l := by
  induction l with
  | nil => simp [arrInsert]
  | cons q l ih =>
    rw [arrInsert]
    split
    · simp
    · simp only [List.mem_cons, ih]
      tauto

theorem arrInsert_rising {α : Type} {i : Nat} {v : α} {l : List (Nat × α)}
    (hl : l.Pairwise (fun p q => p.1 < q.1)) (hi : ∀ p ∈ l, p.1 ≠ i) :
    (arrInsert i v l).Pairwise (fun p q => p.1 < q.1) := by
  induction l with
  | nil => simp [arrInsert]
  | cons q l ih =>
    rw [List.pairwise_cons] at hl
    have hq : q.1 ≠ i := hi q (by simp)
    rw [arrInsert]
    split
    · next hlt =>
      refine List.pairwise_cons.2 ⟨fun p hp => ?_, List.pairwise_cons.2 hl⟩
      rcases List.mem_cons.1 hp with rfl | hp
      · exact hlt
      · exact Nat.lt_trans hlt (hl.1 p hp)
    · next hge =>
      refine List.pairwise_cons.2 ⟨fun p hp => ?_, ih hl.2 fun p hp => hi p (by simp [hp])⟩
      rcases mem_arrInsert.1 hp with rfl | hp
      · show q.1 < i
        omega
      · exact hl.1 p hp

/-- A write in range keeps the canonical form. -/
theorem arrWrite_wf {α : Type} [DecidableEq α] {d : α} {n : Nat} {l : List (Nat × α)} (hl : ArrWf d n l)
    {i : Nat} (hi : i < n) (v : α) : ArrWf d n (arrWrite d l i v) := by
  have hne : ∀ p ∈ l.filter (fun p => p.1 != i), p.1 ≠ i := by simp
  have hrise := hl.1.filter (fun p => p.1 != i)
  have hmem : ∀ p ∈ l.filter (fun p => p.1 != i), p.1 < n ∧ p.2 ≠ d := fun p hp => hl.2 p (List.mem_of_mem_filter hp)
  rw [arrWrite]
  split
  · exact ⟨hrise, hmem⟩
  · next hv =>
    refine ⟨arrInsert_rising hrise hne, fun p hp => ?_⟩
    rcases mem_arrInsert.1 hp with rfl | hp
    · exact ⟨hi, hv⟩
    · exact hmem p hp

theorem arrWf_nil {α : Type} (d : α) (n : Nat) : ArrWf d n [] := by simp [ArrWf]

end Sys2Proof.Machine
end

