-- ==== Sys2Proof/Laws/Decode.lean ====
section
/-! SUPPORT. The bits of the words the encoder lays out, and the fields the decoder reads back from them. -/

namespace Sys2Proof

/-- Bit by bit, `{OP, O, PC}`. -/
theorem getLsbD_requestWord (op : BitVec 2) (o : BitVec 1) (pc : Pc) (i : Nat) :
    BitVec.getLsbD (w := 35) (op ++ o ++ pc) i =
      if i < 32 then pc.getLsbD i else if i < 33 then o.getLsbD (i - 32) else op.getLsbD (i - 33) := by
  have h : BitVec.getLsbD (op ++ o ++ pc) i = if i < 32 then pc.getLsbD i else (op ++ o).getLsbD (i - 32) :=
    BitVec.getLsbD_append
  have h' : BitVec.getLsbD (op ++ o) (i - 32) =
      if i - 32 < 1 then o.getLsbD (i - 32) else op.getLsbD (i - 32 - 1) := BitVec.getLsbD_append
  refine h.trans ?_
  rw [h']
  split_ifs <;> first | rfl | omega

/-- Bit by bit, `{0b1, rest}`. -/
theorem getLsbD_reservedWord (x : BitVec 1) (rest : BitVec 34) (i : Nat) :
    BitVec.getLsbD (w := 35) (x ++ rest) i = if i < 34 then rest.getLsbD i else x.getLsbD (i - 34) :=
  BitVec.getLsbD_append (x := x) (y := rest)

/-- Bit by bit, `{CTOP, INDEX}`. -/
theorem getLsbD_portWord (ctop : BitVec 2) (index : BitVec 32) (i : Nat) :
    (portWord ctop index).getLsbD i = if i < 32 then index.getLsbD i else ctop.getLsbD (i - 32) :=
  BitVec.getLsbD_append (x := ctop) (y := index)

theorem reqOp_requestWord (op : BitVec 2) (o : BitVec 1) (pc : Pc) : reqOp (op ++ o ++ pc) = op := by
  apply BitVec.eq_of_getLsbD_eq
  intro i hi
  rw [reqOp, BitVec.getLsbD_extractLsb', getLsbD_requestWord, if_neg (by omega), if_neg (by omega),
    Nat.add_sub_cancel_left]
  simp [hi]

theorem reqOutcome_requestWord (op : BitVec 2) (o : BitVec 1) (pc : Pc) :
    reqOutcome (op ++ o ++ pc) = o.getLsbD 0 :=
  getLsbD_requestWord op o pc 32

theorem reqPc_requestWord (op : BitVec 2) (o : BitVec 1) (pc : Pc) : reqPc (op ++ o ++ pc) = pc := by
  apply BitVec.eq_of_getLsbD_eq
  intro i hi
  rw [reqPc, BitVec.getLsbD_extractLsb', Nat.zero_add, getLsbD_requestWord, if_pos hi]
  simp [hi]

theorem reqOp_reservedWord_high (rest : BitVec 34) : (reqOp (0b1#1 ++ rest)).getLsbD 1 = true := by
  rw [reqOp, BitVec.getLsbD_extractLsb', getLsbD_reservedWord]
  rfl

theorem low34_reservedWord (x : BitVec 1) (rest : BitVec 34) :
    BitVec.extractLsb' (n := 35) 0 34 (x ++ rest) = rest := by
  apply BitVec.eq_of_getLsbD_eq
  intro i hi
  rw [BitVec.getLsbD_extractLsb', Nat.zero_add, getLsbD_reservedWord, if_pos hi]
  simp [hi]

@[simp] theorem portOp_portWord (ctop : BitVec 2) (index : BitVec 32) : portOp (portWord ctop index) = ctop := by
  apply BitVec.eq_of_getLsbD_eq
  intro i hi
  rw [portOp, BitVec.getLsbD_extractLsb', getLsbD_portWord, if_neg (by omega), Nat.add_sub_cancel_left]
  simp [hi]

@[simp] theorem portIndex_portWord (ctop : BitVec 2) (index : BitVec 32) :
    portIndex (portWord ctop index) = index := by
  apply BitVec.eq_of_getLsbD_eq
  intro i hi
  rw [portIndex, BitVec.getLsbD_extractLsb', Nat.zero_add, getLsbD_portWord, if_pos hi]
  simp [hi]

end Sys2Proof
end

