-- ==== Sys2Proof/Laws/State.lean ====
section
/-! SUPPORT. One lemma per field per update of the state: true by definition, so that no later proof unfolds an update. -/

namespace Sys2Proof.Machine

/-! ### `setTable` -/

@[simp] theorem setTable_cfg (b : Block) (t : TableName) (l : Table) : (setTable b t l).cfg = b.cfg := by
  cases t <;> rfl

@[simp] theorem setTable_status (b : Block) (t : TableName) (l : Table) : (setTable b t l).status = b.status := by
  cases t <;> rfl

@[simp] theorem setTable_ghr (b : Block) (t : TableName) (l : Table) : (setTable b t l).ghr = b.ghr := by
  cases t <;> rfl

@[simp] theorem setTable_lht (b : Block) (t : TableName) (l : Table) : (setTable b t l).lht = b.lht := by
  cases t <;> rfl

@[simp] theorem tableOf_setTable_same (b : Block) (t : TableName) (l : Table) : tableOf (setTable b t l) t = l := by
  cases t <;> rfl

theorem tableOf_setTable_ne (b : Block) {t u : TableName} (l : Table) (h : u ≠ t) :
    tableOf (setTable b t l) u = tableOf b u := by
  cases t <;> cases u <;> first | rfl | exact absurd rfl h

@[simp] theorem setTable_pt (b : Block) (l : Table) : setTable b .pt l = { b with pt := l } := rfl
@[simp] theorem setTable_lpt (b : Block) (l : Table) : setTable b .lpt l = { b with lpt := l } := rfl
@[simp] theorem setTable_gpt (b : Block) (l : Table) : setTable b .gpt l = { b with gpt := l } := rfl
@[simp] theorem setTable_cht (b : Block) (l : Table) : setTable b .cht l = { b with cht := l } := rfl

@[simp] theorem tableOf_pt (b : Block) : tableOf b .pt = b.pt := rfl
@[simp] theorem tableOf_lpt (b : Block) : tableOf b .lpt = b.lpt := rfl
@[simp] theorem tableOf_gpt (b : Block) : tableOf b .gpt = b.gpt := rfl
@[simp] theorem tableOf_cht (b : Block) : tableOf b .cht = b.cht := rfl

/-! ### A new STATUS -/

@[simp] theorem tableOf_status (b : Block) (x : Status) (t : TableName) :
    tableOf { b with status := x } t = tableOf b t := by
  cases t <;> rfl

@[simp] theorem readCtr_status (b : Block) (x : Status) (t : TableName) (i : Nat) :
    readCtr { b with status := x } t i = readCtr b t i := by
  rw [readCtr, readCtr, tableOf_status]

@[simp] theorem faultedStatus_fault (e : Err) : (faultedStatus e).fault = true := rfl
@[simp] theorem faultedStatus_err (e : Err) : (faultedStatus e).err = e := rfl

/-! ### `Block.fresh` (R92) -/

@[simp] theorem fresh_variant (v : Variant) (k : Fin 33) : (Block.fresh v k).cfg.variant = v := rfl
@[simp] theorem fresh_log2N (v : Variant) (k : Fin 33) : (Block.fresh v k).cfg.log2N = k := rfl
@[simp] theorem fresh_mask (v : Variant) (k : Fin 33) : (Block.fresh v k).cfg.mask = maskOf k := rfl
@[simp] theorem fresh_fault (v : Variant) (k : Fin 33) : (Block.fresh v k).status.fault = false := rfl
@[simp] theorem fresh_err (v : Variant) (k : Fin 33) : (Block.fresh v k).status.err = .noError := rfl
@[simp] theorem fresh_ghr (v : Variant) (k : Fin 33) : (Block.fresh v k).ghr = 0 := rfl
@[simp] theorem fresh_lht (v : Variant) (k : Fin 33) : (Block.fresh v k).lht = [] := rfl

@[simp] theorem tableOf_fresh (v : Variant) (k : Fin 33) (t : TableName) : tableOf (Block.fresh v k) t = [] := by
  cases t <;> rfl

theorem maskOf_toNat (k : Fin 33) : (maskOf k).toNat = 2 ^ k.val - 1 := by
  have h : 2 ^ k.val ≤ 2 ^ 32 := Nat.pow_le_pow_right (by decide) (by omega)
  rw [maskOf, BitVec.toNat_ofNat, Nat.mod_eq_of_lt (by omega)]

/-- A freshly constructed block meets the invariant, whatever its VARIANT and size. -/
theorem fresh_wf (v : Variant) (k : Fin 33) : Block.Wf (Block.fresh v k) := by
  refine ⟨maskOf_toNat k, .inl ⟨rfl, rfl⟩, ?_, ?_, ?_, ?_, ?_, fun _ => rfl⟩ <;>
    exact ⟨arrWf_nil_of_eq _ _ rfl, fun _ => rfl⟩
where
  arrWf_nil_of_eq {α : Type} (d : α) (n : Nat) {l : List (Nat × α)} (h : l = []) : ArrWf d n l := by
    subst h
    simp [ArrWf]

/-! ### The interface -/

@[simp] theorem issue_block (x : Input) (s : State) : (issue x s).block = s.block := rfl
@[simp] theorem issue_inputs (x : Input) (s : State) : (issue x s).inputs = s.inputs ++ [x] := rfl
@[simp] theorem issue_response (x : Input) (s : State) : (issue x s).response = s.response := rfl

theorem acceptedRequest_of_running {s : State} {b : Block} (h : Running s b) (w : Wire) :
    acceptedRequest s w = some (decode b.cfg.variant w) := by
  rw [acceptedRequest, h.1]
  simp [h.2]

theorem acceptedRequest_of_not_running {s : State} (h : ∀ b, ¬ Running s b) (w : Wire) : acceptedRequest s w = none := by
  unfold acceptedRequest
  split
  · rfl
  · next b hb =>
    have hf : b.status.fault = true := by
      by_contra hf
      exact h b ⟨hb, by simpa using hf⟩
    rw [if_pos hf]

end Sys2Proof.Machine
end

