-- ==== Sys2Proof/Laws/Ops.lean ====
section
/-! SUPPORT. One lemma per shared operation that says everything it can do; later proofs cite these instead of unfolding
the operation. -/

namespace Sys2Proof.Machine

/-! ### Counters -/

theorem satInc_toNat (c : Counter) : (satInc c).toNat = min (c.toNat + 1) 3 := by
  revert c; decide

theorem satDec_toNat (c : Counter) : (satDec c).toNat = c.toNat - 1 := by
  revert c; decide

theorem taken_eq_msb (c : Counter) : taken c = c.getLsbD 1 := by
  revert c; decide

/-! ### Reads of a written table or history -/

theorem readCtr_setTable_updated (b : Block) (t u : TableName) (i j : Nat) (f : Counter → Counter) :
    readCtr (setTable b t (updatedTable b t i f)) u j =
      if u = t ∧ j = i then f (readCtr b t i) else readCtr b u j := by
  by_cases h : u = t
  · subst h
    rw [readCtr, tableOf_setTable_same, updatedTable, arrRead_write]
    simp [readCtr]
  · rw [readCtr, tableOf_setTable_ne b _ h]
    simp [h, readCtr]

theorem arrRead_updatedTable (b : Block) (t : TableName) (i j : Nat) (f : Counter → Counter) :
    arrRead (tableFill t) (updatedTable b t i f) j = if j = i then f (readCtr b t i) else readCtr b t j := by
  rw [updatedTable, arrRead_write]
  rfl

theorem arrRead_shiftedHistories (b : Block) (i j : Nat) (o : Bool) :
    arrRead historyFill (shiftedHistories b i o) j = if j = i then shiftIn (readHist b i) o else readHist b j := by
  rw [shiftedHistories, arrRead_write]
  rfl

/-! ### Accepting -/

theorem accepting_of_running {s : State} {b : Block} (h : Running s b) (k : Block → Host.Outcome State Fault Refusal) :
    accepting s k = k b := by
  rw [accepting, h.1]
  simp [h.2]

theorem onEngine_of_running {s : State} {b : Block} {v : Variant} (h : Running s b) (hv : b.cfg.variant = v)
    (k : Block → Host.Outcome State Fault Refusal) : onEngine v s k = k b := by
  rw [onEngine, accepting_of_running h, if_pos hv]

theorem onPort_of_running {s : State} {b : Block} (h : Running s b) {t : TableName}
    (ht : HasTable b t) (k : Block → Host.Outcome State Fault Refusal) : onPort t s k = k b := by
  rw [onPort, accepting_of_running h, if_pos ht]

/-- A faulted block accepts nothing (R78). -/
theorem accepting_of_faulted {s : State} {b : Block} (h : s.block = some b) (hf : b.status.fault = true)
    (k : Block → Host.Outcome State Fault Refusal) : accepting s k = .fault .blockFaulted := by
  rw [accepting, h]
  simp [hf]

/-- If a next state came out, the block was running and the continuation gave it. -/
theorem accepting_next {s t : State} {k : Block → Host.Outcome State Fault Refusal} (h : accepting s k = .next t) :
    ∃ b, Running s b ∧ k b = .next t := by
  unfold accepting at h
  split at h
  · cases h
  · next b hb =>
    split at h
    · cases h
    · next hf => exact ⟨b, ⟨hb, by simpa using hf⟩, h⟩

theorem onEngine_next {v : Variant} {s t : State} {k : Block → Host.Outcome State Fault Refusal}
    (h : onEngine v s k = .next t) : ∃ b, Running s b ∧ b.cfg.variant = v ∧ k b = .next t := by
  obtain ⟨b, hb, hk⟩ := accepting_next h
  split at hk
  · next hv => exact ⟨b, hb, hv, hk⟩
  · cases hk

theorem onPort_next {u : TableName} {s t : State} {k : Block → Host.Outcome State Fault Refusal}
    (h : onPort u s k = .next t) : ∃ b, Running s b ∧ HasTable b u ∧ k b = .next t := by
  obtain ⟨b, hb, hk⟩ := accepting_next h
  split at hk
  · next hv => exact ⟨b, hb, hv, hk⟩
  · cases hk

/-! ### Completing and failing -/

theorem complete_next {s t : State} {b : Block} {r : Response} :
    complete s b r = .next t ↔ t = { s with block := some b, response := some r } := by
  rw [complete, Host.Outcome.next.injEq, eq_comm]

theorem raiseError_next {s t : State} {b : Block} {ch : Channel} {e : Err} :
    raiseError s b ch e = .next t ↔
      t = { s with block := some { b with status := faultedStatus e }, response := some (errorResponse ch e) } := by
  rw [raiseError, complete_next]

theorem checkingIndex_in_range {s : State} {b : Block} {i : BitVec 32} (h : i.toNat < entries b)
    (k : Host.Outcome State Fault Refusal) : checkingIndex s b i k = k := by
  rw [checkingIndex, if_pos h]

theorem checkingIndex_out_of_range {s : State} {b : Block} {i : BitVec 32} (h : entries b ≤ i.toNat)
    (k : Host.Outcome State Fault Refusal) : checkingIndex s b i k = raiseError s b .port .indexRange := by
  rw [checkingIndex, if_neg (by omega)]

/-! ### Masked indices (R7, R56) -/

/-- Under the invariant, masking keeps the low k bits. -/
theorem masked_eq_mod {b : Block} (h : b.cfg.mask.toNat = entries b - 1) (x : Nat) : masked b x = x % entries b := by
  rw [masked, h, entries, Nat.and_two_pow_sub_one_eq_mod]

end Sys2Proof.Machine
end

