-- ==== Sys2Proof/Laws/Exec.lean ====
section
/-! SUPPORT. Everything a meaning can do when it answers a next state, said once; later proofs cite this instead of
unfolding exec. -/

namespace Sys2Proof.Machine

/-- A port request's two next states: that of its effect, or that of INDEX_RANGE. -/
def PortEffect (s t : State) (b : Block) (u : TableName) (x : BitVec 32) (b' : Block) (val : Counter) : Prop :=
  HasTable b u ∧
    ((x.toNat < entries b ∧ t = { s with block := some b', response := some (.port (portRsp .noError val)) }) ∨
      (entries b ≤ x.toNat ∧ t = raised s b .indexRange (.port (portRsp .indexRange 0))))

/-- An engine request's next state. -/
def EngineEffect (s t : State) (b : Block) (v : Variant) (b' : Block) (pred : Bool) : Prop :=
  b.cfg.variant = v ∧ t = { s with block := some b', response := some (.engine (engineRsp .noError pred)) }

/-- What each request does to the running block `b` of `s`. -/
def Effect (s t : State) (b : Block) : Instr → Prop
  | .gsharePredict pc => EngineEffect s t b .gshare b (taken (readCtr b .pt (globalIndex b pc)))
  | .gshareTrain pc o =>
    EngineEffect s t b .gshare
      { b with pt := trainedTable b .pt (globalIndex b pc) o, ghr := shiftIn b.ghr o } false
  | .bimodalPredict pc => EngineEffect s t b .bimodal b (taken (readCtr b .pt (pcIndex b pc)))
  | .bimodalTrain pc o => EngineEffect s t b .bimodal { b with pt := trainedTable b .pt (pcIndex b pc) o } false
  | .tournamentPredict pc =>
    EngineEffect s t b .tournament b
      (bif taken (chooserValue b pc) then globalPrediction b pc else localPrediction b pc)
  | .tournamentTrain pc o =>
    EngineEffect s t b .tournament
      { b with
        cht := updatedTable b .cht (pcIndex b pc)
          (fun c => chooserUpdate c (localPrediction b pc) (globalPrediction b pc) o)
        lpt := trainedTable b .lpt (localIndex b pc) o
        lht := shiftedHistories b (pcIndex b pc) o
        gpt := trainedTable b .gpt (globalIndex b pc) o
        ghr := shiftIn b.ghr o } false
  | .illegalPredictO1 _ => t = raised s b .illegalRequest (errorResponse .engine .illegalRequest)
  | .illegalOpReserved _ => t = raised s b .illegalRequest (errorResponse .engine .illegalRequest)
  | .ctGet u x => PortEffect s t b u x b (readCtr b u x.toNat)
  | .ctInc u x => PortEffect s t b u x (setTable b u (updatedTable b u x.toNat satInc)) 0
  | .ctDec u x => PortEffect s t b u x (setTable b u (updatedTable b u x.toNat satDec)) 0
  | .illegalCtopReserved u _ => HasTable b u ∧ t = raised s b .illegalRequest (errorResponse .port .illegalRequest)

theorem portEffect_of_next {s t : State} {b b' : Block} {u : TableName} {x : BitVec 32} {val : Counter}
    (hu : HasTable b u)
    (h : checkingIndex s b x (complete s b' (.port (portRsp .noError val))) = .next t) :
    PortEffect s t b u x b' val := by
  refine ⟨hu, ?_⟩
  by_cases hx : x.toNat < entries b
  · rw [checkingIndex_in_range hx] at h
    exact .inl ⟨hx, complete_next.1 h⟩
  · rw [checkingIndex_out_of_range (by omega)] at h
    exact .inr ⟨by omega, raiseError_next.1 h⟩

/-- If a request answers a next state, the block was running and the next state is its effect. -/
theorem exec_next_effect {i : Instr} {s t : State} (h : exec i s = .next t) : ∃ b, Running s b ∧ Effect s t b i := by
  cases i
  case gsharePredict | gshareTrain | bimodalPredict | bimodalTrain | tournamentPredict | tournamentTrain =>
    obtain ⟨b, hb, hv, hk⟩ := onEngine_next h
    exact ⟨b, hb, hv, complete_next.1 hk⟩
  case illegalPredictO1 | illegalOpReserved =>
    obtain ⟨b, hb, hk⟩ := accepting_next h
    exact ⟨b, hb, raiseError_next.1 hk⟩
  case illegalCtopReserved =>
    obtain ⟨b, hb, hu, hk⟩ := onPort_next h
    exact ⟨b, hb, hu, raiseError_next.1 hk⟩
  case ctGet | ctInc | ctDec =>
    obtain ⟨b, hb, hu, hk⟩ := onPort_next h
    exact ⟨b, hb, portEffect_of_next hu hk⟩

end Sys2Proof.Machine
end

