-- ==== Sys2Proof/Laws/PerInstr.lean ====
section
/-! SUPPORT. A statement about every request as syntax: its encoded word has the fixed bits of its row in
spec/opcode_table.json (the row's mask and match, copied from that file and not from the encoder). -/

namespace Sys2Proof.Laws.OpcodeRow

/-- The row's `mask`. -/
def rowMask : Instr → Nat
  | .gsharePredict _ => 0x700000000
  | .gshareTrain _ _ => 0x600000000
  | .bimodalPredict _ => 0x700000000
  | .bimodalTrain _ _ => 0x600000000
  | .tournamentPredict _ => 0x700000000
  | .tournamentTrain _ _ => 0x600000000
  | .illegalPredictO1 _ => 0x700000000
  | .illegalOpReserved _ => 0x400000000
  | .ctGet _ _ => 0x300000000
  | .ctInc _ _ => 0x300000000
  | .ctDec _ _ => 0x300000000
  | .illegalCtopReserved _ _ => 0x300000000

/-- The row's `match`. -/
def rowMatch : Instr → Nat
  | .gsharePredict _ => 0x000000000
  | .gshareTrain _ _ => 0x200000000
  | .bimodalPredict _ => 0x000000000
  | .bimodalTrain _ _ => 0x200000000
  | .tournamentPredict _ => 0x000000000
  | .tournamentTrain _ _ => 0x200000000
  | .illegalPredictO1 _ => 0x100000000
  | .illegalOpReserved _ => 0x400000000
  | .ctGet _ _ => 0x000000000
  | .ctInc _ _ => 0x100000000
  | .ctDec _ _ => 0x200000000
  | .illegalCtopReserved _ _ => 0x300000000

/-- The word has the row's fixed bits. -/
def FixedBits (mask value : Nat) : Wire → Prop
  | .request w => w &&& BitVec.ofNat 35 mask = BitVec.ofNat 35 value
  | .port _ w => w &&& BitVec.ofNat 34 mask = BitVec.ofNat 34 value

/-- The encoding of `i` has the fixed bits of its row. -/
def Statement (i : Instr) : Prop := FixedBits (rowMask i) (rowMatch i) (encode i)

theorem predictWord_fixed (pc : Pc) : predictWord pc &&& 0x700000000#35 = 0x000000000#35 := by
  apply BitVec.eq_of_getLsbD_eq
  intro i hi
  rw [BitVec.getLsbD_and, predictWord, getLsbD_requestWord]
  interval_cases i <;> simp

theorem trainWord_fixed (pc : Pc) (o : Bool) : trainWord pc o &&& 0x600000000#35 = 0x200000000#35 := by
  apply BitVec.eq_of_getLsbD_eq
  intro i hi
  rw [BitVec.getLsbD_and, trainWord, getLsbD_requestWord]
  interval_cases i <;> simp

theorem portWord_fixed (ctop : BitVec 2) (index : BitVec 32) {value : BitVec 34} (hv : portWord ctop 0 = value) :
    portWord ctop index &&& 0x300000000#34 = value := by
  subst hv
  apply BitVec.eq_of_getLsbD_eq
  intro i hi
  rw [BitVec.getLsbD_and, getLsbD_portWord, getLsbD_portWord]
  interval_cases i <;> simp

theorem gsharePredict (pc : Pc) : Statement (.gsharePredict pc) := predictWord_fixed pc

theorem gshareTrain (pc : Pc) (o : Bool) : Statement (.gshareTrain pc o) := trainWord_fixed pc o

theorem bimodalPredict (pc : Pc) : Statement (.bimodalPredict pc) := predictWord_fixed pc

theorem bimodalTrain (pc : Pc) (o : Bool) : Statement (.bimodalTrain pc o) := trainWord_fixed pc o

theorem tournamentPredict (pc : Pc) : Statement (.tournamentPredict pc) := predictWord_fixed pc

theorem tournamentTrain (pc : Pc) (o : Bool) : Statement (.tournamentTrain pc o) := trainWord_fixed pc o

theorem illegalPredictO1 (bits : BitVec 32) : Statement (.illegalPredictO1 bits) := by
  apply BitVec.eq_of_getLsbD_eq
  intro i hi
  rw [BitVec.getLsbD_and, getLsbD_requestWord]
  interval_cases i <;> simp [rowMask, rowMatch]

theorem illegalOpReserved (bits : BitVec 34) : Statement (.illegalOpReserved bits) := by
  apply BitVec.eq_of_getLsbD_eq
  intro i hi
  rw [BitVec.getLsbD_and, getLsbD_reservedWord]
  interval_cases i <;> simp [rowMask, rowMatch]

theorem ctGet (t : TableName) (index : BitVec 32) : Statement (.ctGet t index) :=
  portWord_fixed 0b00#2 index (value := 0x000000000#34) (by decide)

theorem ctInc (t : TableName) (index : BitVec 32) : Statement (.ctInc t index) :=
  portWord_fixed 0b01#2 index (value := 0x100000000#34) (by decide)

theorem ctDec (t : TableName) (index : BitVec 32) : Statement (.ctDec t index) :=
  portWord_fixed 0b10#2 index (value := 0x200000000#34) (by decide)

theorem illegalCtopReserved (t : TableName) (bits : BitVec 32) : Statement (.illegalCtopReserved t bits) :=
  portWord_fixed 0b11#2 bits (value := 0x300000000#34) (by decide)

end Sys2Proof.Laws.OpcodeRow
end

