-- ==== Sys2Proof/Laws/Step.lean ====
section
/-! SUPPORT. Everything a step can do, said once: it idles, constructs, or runs an accepted request; and what follows a word
that is not accepted. Later proofs cite these instead of unfolding step. -/

namespace Sys2Proof.Machine

/-! ### A machine with no running block -/

/-- Any state has a running block or none. -/
theorem running_or_not (s : State) : (∃ b, Running s b) ∨ ∀ b, ¬ Running s b := by
  by_cases h : ∃ b, Running s b
  · exact .inl h
  · exact .inr fun b hb => h ⟨b, hb⟩

theorem not_running_of_faulted {s : State} {b : Block} (h : s.block = some b) (hf : b.status.fault = true) :
    ∀ c, ¬ Running s c := by
  rintro c ⟨hc, hr⟩
  obtain rfl : b = c := by simpa [h] using hc
  simp [hf] at hr

theorem not_running_of_no_block {s : State} (h : s.block = none) : ∀ c, ¬ Running s c := by
  rintro c ⟨hc, -⟩
  simp [h] at hc

/-- What has been sent does not decide whether the block runs. -/
theorem running_inputs {s : State} {l : List Input} {b : Block} : Running { s with inputs := l } b ↔ Running s b := Iff.rfl

/-! ### Waiting for a construction -/

/-- Behind an unaccepted word, the first construction is taken, and with none the machine is idle. -/
theorem awaitConstruction_cases (s : State) (waiting : List Input) :
    (∃ sent code n rest, waiting = sent ++ .construct code n :: rest ∧ (∀ x ∈ sent, ∃ w, x = .send w) ∧
      awaitConstruction s waiting = construct code n { s with inputs := rest }) ∨
    ((∀ code n, .construct code n ∉ waiting) ∧ awaitConstruction s waiting = idle s) := by
  induction waiting with
  | nil => exact .inr ⟨by simp, rfl⟩
  | cons x waiting ih =>
    cases x with
    | construct code n => exact .inl ⟨[], code, n, waiting, rfl, by simp, rfl⟩
    | send w =>
      obtain ⟨sent, code, n, rest, rfl, hs, h⟩ | ⟨hn, h⟩ := ih
      · exact .inl ⟨.send w :: sent, code, n, rest, rfl, by simpa using hs, h⟩
      · exact .inr ⟨by simpa using hn, h⟩

theorem awaitConstruction_append {s : State} {code : BitVec 2} {n : Nat} {sent rest : List Input}
    (hs : ∀ x ∈ sent, ∃ w, x = .send w) :
    awaitConstruction s (sent ++ .construct code n :: rest) = construct code n { s with inputs := rest } := by
  induction sent with
  | nil => rfl
  | cons x sent ih =>
    obtain ⟨w, rfl⟩ := hs x (by simp)
    exact ih fun y hy => hs y (by simp [hy])

/-! ### The step -/

/-- A step takes a construction, runs an accepted request, or finds nothing to take. -/
theorem step_cases (s : State) :
    (∃ code n rest, ReachesConstruction s code n rest ∧ step s = construct code n { s with inputs := rest }) ∨
    (∃ b w rest, Running s b ∧ s.inputs = .send w :: rest ∧
      step s = exec (decode b.cfg.variant w) { s with inputs := rest }) ∨
    ((∀ code n, .construct code n ∉ s.inputs) ∧ (s.inputs = [] ∨ ∀ b, ¬ Running s b) ∧ step s = idle s) := by
  unfold step
  split
  · next h => exact .inr (.inr ⟨by simp [h], .inl h, rfl⟩)
  · next code n rest h => exact .inl ⟨code, n, rest, ⟨[], h, by simp, .inl rfl⟩, rfl⟩
  · next w rest h =>
    obtain ⟨b, hb⟩ | hn := running_or_not s
    · rw [acceptedRequest_of_running hb]
      exact .inr (.inl ⟨b, w, rest, hb, h, rfl⟩)
    · rw [acceptedRequest_of_not_running hn]
      obtain ⟨sent, code, n, rest', hr, hs, hw⟩ | ⟨hc, hw⟩ := awaitConstruction_cases s rest
      · exact .inl ⟨code, n, rest', ⟨.send w :: sent, by rw [h, hr]; rfl, by simpa using hs, .inr hn⟩, hw⟩
      · exact .inr (.inr ⟨by simpa [h] using hc, .inr hn, hw⟩)

end Sys2Proof.Machine
end

