-- ==== Sys2Proof/Tests/Slice0.lean ====
section
/-! SUPPORT. The model's own tests. Expected values come from spec/95_test_vectors.md (the vector's id in each comment) or
from the encoding tables of spec/30_encoding.md, and the witnesses show that the hypotheses of every statement can be
met. -/

namespace Sys2Proof.Machine

/-! ### Helpers: small blocks, and what an outcome holds -/

/-- A Gshare block of 2^k entries. -/
def testGshare (k : Fin 33) (pt : Table) (ghr : Nat) : Block := { Block.fresh .gshare k with pt := pt, ghr := ghr }

/-- A Bimodal block of 2^k entries. -/
def testBimodal (k : Fin 33) (pt : Table) : Block := { Block.fresh .bimodal k with pt := pt }

/-- The Tournament block before record 5 of program P3 (vector T-T1). -/
def testTournament : Block :=
  { Block.fresh .tournament 2 with
    lpt := [(0, 1), (1, 1), (2, 2)], gpt := [(0, 1), (1, 2), (2, 1)], lht := [(1, 7), (2, 1)], ghr := 15 }

/-- A Tournament block whose entries of pc 1 are saturated: LPT[2] up, GPT[2] down, CHT[1] down. -/
def testSaturated : Block :=
  { Block.fresh .tournament 2 with lpt := [(2, 3)], cht := [(1, 0)], lht := [(1, 7)], ghr := 15 }

/-- The block of the counter-table vectors: N = 4, table [0,1,2,3]. -/
def testPort : Block := testGshare 2 [(1, 1), (2, 2), (3, 3)] 0

/-- The block, with what the host has sent. -/
def testState (b : Block) (inputs : List Input) : State := { block := some b, inputs := inputs, response := none }

/-- A faulted block. -/
def testFaulted : Block := { testPort with status := { fault := true, err := .illegalRequest } }

/-- No block. -/
def testNoBlock (inputs : List Input) : State := { block := none, inputs := inputs, response := none }

/-- The next state of an outcome, where it has one. -/
def nextOf : Host.Outcome State Fault Refusal → Option State
  | .next s => some s
  | .fault _ => none
  | .refused _ => none

/-- The fault of an outcome, where it has one. -/
def faultOf : Host.Outcome State Fault Refusal → Option Fault
  | .next _ => none
  | .fault f => some f
  | .refused _ => none

/-- The refusal of an outcome, where it has one. -/
def refusalOf : Host.Outcome State Fault Refusal → Option Refusal
  | .next _ => none
  | .fault _ => none
  | .refused r => some r

/-- The block and answer after a word is sent to a block. -/
def afterWord (b : Block) (x : Wire) : Option (Option Block × Option Response) :=
  (nextOf (step (testState b [.send x]))).map fun s => (s.block, s.response)

/-! ### WellFormed refuses what does not exist on the block -/

theorem test_wf_gshare_predict : Instr.wellFormed .bimodal (.gsharePredict 0) = false := by decide
theorem test_wf_gshare_train : Instr.wellFormed .tournament (.gshareTrain 0 true) = false := by decide
theorem test_wf_bimodal_predict : Instr.wellFormed .gshare (.bimodalPredict 0) = false := by decide
theorem test_wf_bimodal_train : Instr.wellFormed .tournament (.bimodalTrain 0 true) = false := by decide
theorem test_wf_tournament_predict : Instr.wellFormed .gshare (.tournamentPredict 0) = false := by decide
theorem test_wf_tournament_train : Instr.wellFormed .bimodal (.tournamentTrain 0 true) = false := by decide
theorem test_wf_ctGet : Instr.wellFormed .tournament (.ctGet .pt 0) = false := by decide
theorem test_wf_ctInc : Instr.wellFormed .gshare (.ctInc .lpt 0) = false := by decide
theorem test_wf_ctDec : Instr.wellFormed .bimodal (.ctDec .gpt 0) = false := by decide
theorem test_wf_ctop : Instr.wellFormed .gshare (.illegalCtopReserved .cht 0) = false := by decide
theorem test_wf_port : Wire.wellFormed .bimodal (.port .cht 0) = false := by decide

/-! ### Decoding: words written out from R36, R41 and vectors D-1 to D-8, CT1 to CT8 -/

theorem test_decode_gshare_predict :  -- D-1
    decode .gshare (.request 0b00000000000000000000000000000010000#35) = .gsharePredict 0x10 := by decide
theorem test_decode_bimodal_predict :  -- D-8
    decode .bimodal (.request 0b00011111111111111111111111111111111#35) = .bimodalPredict 0xFFFFFFFF := by decide
theorem test_decode_tournament_predict :  -- D-1
    decode .tournament (.request 0b00000000000000000000000000000010000#35) = .tournamentPredict 0x10 := by decide
theorem test_decode_gshare_train :  -- D-4
    decode .gshare (.request 0b01100000000000000000000000000010000#35) = .gshareTrain 0x10 true := by decide
theorem test_decode_bimodal_train :  -- D-3
    decode .bimodal (.request 0b01000000000000000000000000000010000#35) = .bimodalTrain 0x10 false := by decide
theorem test_decode_tournament_train :  -- D-7
    decode .tournament (.request 0b01011111111111111111111111111111111#35) = .tournamentTrain 0xFFFFFFFF false := by
  decide
theorem test_decode_illegal_predict_o1 :  -- D-2
    decode .bimodal (.request 0b00100000000000000000000000000010000#35) = .illegalPredictO1 0x10 := by decide
theorem test_decode_illegal_op10 :  -- D-5
    decode .gshare (.request 0b10000000000000000000000000000000000#35) = .illegalOpReserved 0 := by decide
theorem test_decode_illegal_op11 :  -- D-6
    decode .tournament (.request 0b11111111111111111111111111111111111#35) = .illegalOpReserved 0x3FFFFFFFF := by
  decide
theorem test_decode_ct_get :  -- CT1
    decode .gshare (.port .pt 0b0000000000000000000000000000000010#34) = .ctGet .pt 2 := by decide
theorem test_decode_ct_inc :  -- CT7
    decode .gshare (.port .pt 0b0111111111111111111111111111111111#34) = .ctInc .pt 0xFFFFFFFF := by decide
theorem test_decode_ct_dec :  -- CT5
    decode .tournament (.port .cht 0b1000000000000000000000000000000010#34) = .ctDec .cht 2 := by decide
theorem test_decode_ctop_reserved :  -- CT8
    decode .gshare (.port .pt 0b1100000000000000000000000000001001#34) = .illegalCtopReserved .pt 9 := by decide
theorem test_table_word : decodeTableWord 40 0x300000010 = some (.tournamentTrain 0x10 true) := by decide
theorem test_table_word_too_wide : decodeTableWord 40 0x800000000 = none := by decide

/-! ### The counter-table port -/

theorem test_ct_get : afterWord testPort (.port .pt 0x000000002) =  -- CT1
    some (some testPort, some (.port 0b0010#4)) := by decide
theorem test_ct_get_out_of_range : afterWord testPort (.port .pt 0x000000004) =  -- CT6
    some (some { testPort with status := { fault := true, err := .indexRange } }, some (.port 0b1000#4)) := by decide
theorem test_ct_inc : afterWord testPort (.port .pt 0x100000001) =  -- CT3
    some (some { testPort with pt := [(1, 2), (2, 2), (3, 3)] }, some (.port 0#4)) := by decide
theorem test_ct_inc_saturates : afterWord testPort (.port .pt 0x100000003) =  -- CT2
    some (some testPort, some (.port 0#4)) := by decide
theorem test_ct_dec : afterWord testPort (.port .pt 0x200000002) =  -- CT5
    some (some { testPort with pt := [(1, 1), (2, 1), (3, 3)] }, some (.port 0#4)) := by decide
theorem test_ct_dec_saturates : afterWord testPort (.port .pt 0x200000000) =  -- CT4
    some (some testPort, some (.port 0#4)) := by decide
theorem test_ctop_reserved_index_not_checked : afterWord testPort (.port .pt 0x300000009) =  -- CT8
    some (some { testPort with status := { fault := true, err := .illegalRequest } }, some (.port 0b0100#4)) := by decide

/-! ### Gshare -/

theorem test_gshare_predict : afterWord (testGshare 2 [(2, 3)] 0b11) (.request 0x000000001) =  -- G-P1
    some (some (testGshare 2 [(2, 3)] 0b11), some (.engine 0b001#3)) := by decide
theorem test_gshare_predict_high_history_ignored :  -- G-P3
    afterWord (testGshare 2 [(0, 2)] 0b1000000011) (.request 0x000000003) =
      some (some (testGshare 2 [(0, 2)] 0b1000000011), some (.engine 0b001#3)) := by decide
theorem test_gshare_train : afterWord (testGshare 2 [] 0) (.request 0x300000001) =  -- G-T1
    some (some (testGshare 2 [(1, 1)] 1), some (.engine 0#3)) := by decide
theorem test_gshare_train_saturated_shifts :  -- G-T2
    afterWord (testGshare 2 [(0, 3), (1, 3), (2, 3), (3, 3)] 0b10) (.request 0x300000002) =
      some (some (testGshare 2 [(0, 3), (1, 3), (2, 3), (3, 3)] 0b101), some (.engine 0#3)) := by decide
theorem test_gshare_index_k32 :  -- G-I5
    globalIndex (testGshare 32 [] 0x100000001) 0x80000001 = 0x80000000 := by decide

/-! ### Bimodal -/

theorem test_bimodal_predict : afterWord (testBimodal 5 [(16, 2)]) (.request 0x000000030) =  -- B-2
    some (some (testBimodal 5 [(16, 2)]), some (.engine 0b001#3)) := by decide
theorem test_bimodal_predict_low_bits_kept : afterWord (testBimodal 5 [(16, 2)]) (.request 0x000000011) =  -- B-3
    some (some (testBimodal 5 [(16, 2)]), some (.engine 0b000#3)) := by decide
theorem test_bimodal_train : afterWord (testBimodal 5 [(16, 1)]) (.request 0x300000010) =  -- B-4
    some (some (testBimodal 5 [(16, 2)]), some (.engine 0#3)) := by decide
theorem test_bimodal_train_k32 : afterWord (testBimodal 32 []) (.request 0x3FFFFFFFF) =  -- B-8
    some (some (testBimodal 32 [(0xFFFFFFFF, 1)]), some (.engine 0#3)) := by decide

/-! ### Tournament -/

theorem test_tournament_predict_global :  -- P3 record 5: lp = 1, gp = 0, CHT[1] = 2, so global
    afterWord testTournament (.request 0x000000001) = some (some testTournament, some (.engine 0b000#3)) := by decide
theorem test_tournament_predict_local :  -- T-P1: CHT = 0, lp = 1, gp = 0, so local
    afterWord { testTournament with cht := [(1, 0)] } (.request 0x000000001) =
      some (some { testTournament with cht := [(1, 0)] }, some (.engine 0b001#3)) := by decide
theorem test_tournament_train : afterWord testTournament (.request 0x300000001) =  -- T-T1
    some (some { testTournament with
      lpt := [(0, 1), (1, 1), (2, 3)], gpt := [(0, 1), (1, 2), (2, 2)], cht := [(1, 1)],
      lht := [(1, 15), (2, 1)], ghr := 31 }, some (.engine 0#3)) := by decide
theorem test_tournament_train_towards_global :  -- P3 record 6
    (afterWord { testTournament with
      lpt := [(0, 1), (1, 1), (2, 3)], gpt := [(0, 1), (1, 2), (2, 2)], cht := [(1, 1)],
      lht := [(1, 15), (2, 1)], ghr := 31 } (.request 0x300000002)).map (fun p => p.1.map (·.cht)) =
    some (some [(1, 1), (2, 3)]) := by decide

/-! ### Illegal words and faulted blocks -/

theorem test_illegal_predict_o1 : afterWord testPort (.request 0x100000010) =  -- D-2
    some (some { testPort with status := { fault := true, err := .illegalRequest } }, some (.engine 0b010#3)) := by
  decide
theorem test_illegal_op_reserved : afterWord testPort (.request 0x400000001) =  -- P5
    some (some { testPort with status := { fault := true, err := .illegalRequest } }, some (.engine 0b010#3)) := by
  decide
theorem test_faulted_not_accepted :  -- P5, last line
    faultOf (step (testState testFaulted [.send (.request 0x000000001)])) = some .blockFaulted := by decide
theorem test_faulted_constructs_again :  -- R93
    (nextOf (step (testState testFaulted [.construct 0b01 4]))).map (·.block) =
      some (some (Block.fresh .bimodal 2)) := by decide
theorem test_faulted_word_then_construct :  -- R83, R93, I17: the word gets nothing, and the construction is carried out
    (nextOf (step (testState testFaulted [.send (.request 0x000000001), .construct 0b01 4, .send (.request 2)]))) =
      some { block := some (Block.fresh .bimodal 2), inputs := [.send (.request 2)],
             response := some (.construction .noError) } := by decide
/-! ### Construction: K1 to K9 -/

theorem test_construct_zero : nextOf (construct 0b00 0 (testState testPort [])) =  -- K1
    some { block := none, inputs := [], response := some (.construction .configError) } := by decide
theorem test_construct_one : (nextOf (construct 0b00 1 (testNoBlock []))).map (·.block) =  -- K2
    some (some (Block.fresh .gshare 0)) := by decide
theorem test_construct_six : (nextOf (construct 0b10 6 (testNoBlock []))).map (·.block) = some none := by decide  -- K5
theorem test_construct_2_32 : (nextOf (construct 0b10 (2 ^ 32) (testNoBlock []))).map  -- K6
    (fun s => s.block.map (fun b => (b.cfg.log2N.val, b.cfg.mask))) = some (some (32, 0xFFFFFFFF)) := by decide
theorem test_construct_2_33 : refusalOf (construct 0b00 (2 ^ 33) (testNoBlock [])) =  -- K7
    some .memLimitAbove2Pow32 := by decide
theorem test_construct_reserved_code : (nextOf (construct 0b11 4 (testNoBlock []))).map (·.block) =  -- K8
    some none := by decide
theorem test_construct_tournament : (nextOf (construct 0b10 4 (testNoBlock []))).map  -- K9
    (fun s => s.block.map (fun b => (readCtr b .lpt 3, readCtr b .gpt 3, readCtr b .cht 3, readHist b 3, b.ghr))) =
    some (some (0, 0, 2, 0, 0)) := by decide

/-! ### The harness and the assembler -/

theorem test_parse_trace :  -- R84's example, and two extra bytes (P1)
    parseTrace [0, 0, 0, 2, 0x12, 0x34, 0x56, 0x78, 0xFF, 0, 0, 0, 0x10, 0, 0, 0] =
      [{ pc := 0x12345678, outcome := true }, { pc := 0x10, outcome := false }] := by decide
theorem test_replay_record :  -- P1, record 3
    replayRecord { pc := 0x10, outcome := false } { branchCount := 2, mispredictCount := 2 }
      (testState (testBimodal 5 [(16, 2)]) []) =
    .done { branchCount := 3, mispredictCount := 3 }
      { block := some (testBimodal 5 [(16, 1)]), inputs := [], response := some (.engine 0#3) } := by decide
theorem test_report : (report { branchCount := 5, mispredictCount := 4 }).rate = some 80 := by  -- P2
  norm_num [report]
theorem test_read_step : readLine "step 1, t           ; one record".toList = .line (.step 1 true) := by decide
theorem test_read_overflow : readLine "predict 0x100000000".toList = .malformed := by decide
theorem test_protocol : followsProtocol (assemble .pt (.step 0x10 true)) = true := by decide
theorem test_protocol_other_pc :
    followsProtocol (assemble .pt (.predict 0x10) ++ assemble .pt (.train 0x11 true)) = false := by decide

/-! ### Reset and the next word -/

theorem test_fetch_word_runs_next :  -- R69's example: from reset with N = 4, `train 1, t`
    (nextOf (step (State.reset.withFetchWord 40 0x300000001))).map (·.block) =
      some (some { Block.fresh .tournament 2 with
        lpt := [(1, 1)], gpt := [(1, 1)], lht := [(1, 1)], ghr := 1 }) := by decide

/-! ### Witnesses: a concrete state that meets the hypotheses of each statement, one for each clause -/

theorem witness_EncodeThenDecodeGivesTheRequestBack : Instr.wellFormed .gshare (.gshareTrain 0xFFFFFFFF true) = true := by
  decide
theorem witness_EveryWordIsTheEncodingOfOneRequest :
    Wire.wellFormed .tournament (.port .cht 0x3FFFFFFFF) = true ∧
      Instr.wellFormed .tournament (.illegalCtopReserved .cht 0xFFFFFFFF) = true ∧
      encode (.illegalCtopReserved .cht 0xFFFFFFFF) = .port .cht 0x3FFFFFFFF := by decide
theorem witness_IllegalWordsAreExactlyTheReservedOnes :
    Running (testState testPort [.send (.request 0x400000000)]) testPort ∧ IllegalWord 0x400000000#35 ∧
      IllegalWord 0x1FFFFFFFF#35 ∧ ¬ IllegalWord 0x0FFFFFFFF#35 ∧ ¬ IllegalWord 0x200000000#35 := by
  refine ⟨⟨rfl, rfl⟩, ?_⟩
  unfold IllegalWord
  decide
theorem witness_StepRunsTheDecodedRequest :
    (testState testPort [.send (.request 1)]).block = some testPort ∧
      (testState testPort [.send (.request 1)]).inputs = .send (.request 1) :: [] ∧ testPort.status.fault = false ∧
      (testState testFaulted [.send (.request 1), .construct 0b01 4]).block = some testFaulted ∧
      (testState testFaulted [.send (.request 1), .construct 0b01 4]).inputs =
        .send (.request 1) :: [.construct 0b01 4] ∧ testFaulted.status.fault = true := ⟨rfl, rfl, rfl, rfl, rfl, rfl⟩
theorem witness_RunningBlockWaitsWithoutChange :
    Running (testState testPort []) testPort ∧ (testState testPort []).inputs = [] := ⟨⟨rfl, rfl⟩, rfl⟩
theorem witness_FaultedBlockAcceptsNoRequest :
    (testState testFaulted [.send (.request 1)]).block = some testFaulted ∧ testFaulted.status.fault = true ∧
      ∀ code n, .construct code n ∉ (testState testFaulted [.send (.request 1)]).inputs :=
  ⟨rfl, rfl, by simp [testState]⟩
theorem witness_NoRequestWithoutABlock :
    (testNoBlock [.send (.request 1)]).block = none ∧
      ∀ code n, .construct code n ∉ (testNoBlock [.send (.request 1)]).inputs := ⟨rfl, by simp [testNoBlock]⟩
theorem witness_StepRefusesOnlyWhatTheBlockLacks :
    step (testState testPort [.send (.port .cht 0)]) = .refused (.tableNotBuilt .cht) ∧
      step (testState testPort [.construct 0b00 (2 ^ 33)]) = .refused .memLimitAbove2Pow32 := ⟨rfl, rfl⟩
theorem witness_ConstructionIsReachedAtAnyTime :
    ReachesConstruction (testState testPort [.construct 0b01 4]) 0b01 4 [] ∧
      ReachesConstruction (testState testFaulted [.send (.request 1), .send (.port .pt 0), .construct 0b01 4]) 0b01 4 [] :=
  ⟨⟨[], rfl, by simp, .inl rfl⟩,
    ⟨[.send (.request 1), .send (.port .pt 0)], rfl, by simp, .inr (not_running_of_faulted rfl rfl)⟩⟩
theorem witness_ConstructionChecksItsArguments :
    (0b11#2 = 0b11#2 ∨ ¬ ∃ k, 0 = 2 ^ k) ∧ (0b10#2 ≠ 0b11#2 ∧ 2 ^ 33 = 2 ^ 33 ∧ 32 < 33) ∧
      (0b10#2 ≠ 0b11#2 ∧ 2 ^ 32 = 2 ^ 32 ∧ 32 ≤ 32) ∧ ¬ ∃ k, 0 = 2 ^ k := by
  refine ⟨.inl rfl, by decide, by decide, ?_⟩
  rintro ⟨k, hk⟩
  exact absurd hk.symm (Nat.two_pow_pos k).ne'
theorem witness_ConstructionSetsEveryElement :
    (testState testFaulted [.construct 0b10 (2 ^ 32)]).inputs = .construct 0b10 (2 ^ 32) :: [] ∧ 32 ≤ 32 ∧
      (0b10#2, Variant.tournament) ∈
        [(0b00#2, Variant.gshare), (0b01#2, Variant.bimodal), (0b10#2, Variant.tournament)] :=
  ⟨rfl, by decide, by decide⟩
theorem witness_ResetIsAConstruction : (testNoBlock []).inputs = [] := rfl
theorem witness_StepKeepsTheInvariant :
    (testState testTournament [.send (.request 0x300000001)]).Wf ∧
      (nextOf (step (testState testTournament [.send (.request 0x300000001)]))).isSome = true := by decide
theorem witness_EqualReadsAreEqualTables :
    ArrWf (0 : Counter) 4 ([(1, 1), (3, 2)] : Table) ∧
      (∀ i, arrRead (0 : Counter) [(1, 1), (3, 2)] i = arrRead (0 : Counter) [(1, 1), (3, 2)] i) ∧
      ArrWf 0 4 ([(1, 7), (2, 1)] : HistoryTable) ∧
      ∀ i, arrRead 0 ([(1, 7), (2, 1)] : HistoryTable) i = arrRead 0 ([(1, 7), (2, 1)] : HistoryTable) i :=
  ⟨by decide, fun _ => rfl, by decide, fun _ => rfl⟩
theorem witness_CounterGetReturnsTheEntry :
    Running (testState testPort []) testPort ∧ HasTable testPort .pt ∧ (3#32).toNat < entries testPort ∧
      entries testPort ≤ (4#32).toNat := ⟨⟨rfl, rfl⟩, by decide, by decide, by decide⟩
theorem witness_CounterIncMovesOneEntryUp :
    Running (testState testTournament []) testTournament ∧ HasTable testTournament .cht ∧
      (3#32).toNat < entries testTournament ∧ entries testTournament ≤ (4#32).toNat :=
  ⟨⟨rfl, rfl⟩, by decide, by decide, by decide⟩
theorem witness_CounterDecMovesOneEntryDown :
    Running (testState testTournament []) testTournament ∧ HasTable testTournament .lpt ∧
      (0#32).toNat < entries testTournament ∧ entries testTournament ≤ (0xFFFFFFFF#32).toNat :=
  ⟨⟨rfl, rfl⟩, by decide, by decide, by decide⟩
theorem witness_OutOfRangeIndexRaisesIndexRange :
    Running (testState testPort []) testPort ∧ HasTable testPort .pt ∧ entries testPort ≤ (4#32).toNat ∧
      Instr.ctInc .pt 4 ∈ [Instr.ctGet .pt 4, Instr.ctInc .pt 4, Instr.ctDec .pt 4] :=
  ⟨⟨rfl, rfl⟩, by decide, by decide, by decide⟩
theorem witness_IllegalRequestsRaiseAndWriteNothing :
    Running (testState testPort []) testPort ∧ HasTable testPort .pt := ⟨⟨rfl, rfl⟩, by decide⟩
theorem witness_GsharePredictReadsTheIndexedCounter :
    Running (testState testPort []) testPort ∧ MaskValid testPort ∧ testPort.cfg.variant = .gshare :=
  ⟨⟨rfl, rfl⟩, by decide, rfl⟩
theorem witness_GshareTrainWritesOneCounterAndHistory :
    Running (testState (testGshare 32 [] 5) []) (testGshare 32 [] 5) ∧ MaskValid (testGshare 32 [] 5) ∧
      (testGshare 32 [] 5).cfg.variant = .gshare := ⟨⟨rfl, rfl⟩, by decide, rfl⟩
theorem witness_BimodalPredictReadsTheIndexedCounter :
    Running (testState (testBimodal 0 [(0, 1)]) []) (testBimodal 0 [(0, 1)]) ∧ MaskValid (testBimodal 0 [(0, 1)]) ∧
      (testBimodal 0 [(0, 1)]).cfg.variant = .bimodal := ⟨⟨rfl, rfl⟩, by decide, rfl⟩
theorem witness_BimodalTrainWritesOneCounter :
    Running (testState (testBimodal 5 [(16, 1)]) []) (testBimodal 5 [(16, 1)]) ∧ MaskValid (testBimodal 5 [(16, 1)]) ∧
      (testBimodal 5 [(16, 1)]).cfg.variant = .bimodal := ⟨⟨rfl, rfl⟩, by decide, rfl⟩
theorem witness_BimodalAliasesShareTheirCounter :  -- R63's example
    (testState (testBimodal 5 []) []).block = some (testBimodal 5 []) ∧ MaskValid (testBimodal 5 []) ∧
      (0x10#32).toNat % entries (testBimodal 5 []) = (0x30#32).toNat % entries (testBimodal 5 []) ∧
      (testBimodal 5 []).status.fault = false ∧ (testBimodal 5 []).cfg.variant = .bimodal :=
  ⟨rfl, by decide, by decide, rfl, rfl⟩
theorem witness_SaturatingTrainKeepsItsTable_bimodal :  -- B-5
    Running (testState (testBimodal 5 [(16, 3)]) []) (testBimodal 5 [(16, 3)]) ∧ Block.Wf (testBimodal 5 [(16, 3)]) ∧
      (testBimodal 5 [(16, 3)]).cfg.variant = .bimodal ∧
      (readCtr (testBimodal 5 [(16, 3)]) .pt ((0x30#32).toNat % entries (testBimodal 5 [(16, 3)]))).toNat =
        (if true then 3 else 0) := ⟨⟨rfl, rfl⟩, by decide, rfl, by decide⟩
theorem witness_SaturatingTrainKeepsItsTable_gshare :  -- G-T3: saturated at 0 with a not-taken outcome
    Running (testState (testGshare 2 [] 5) []) (testGshare 2 [] 5) ∧ Block.Wf (testGshare 2 [] 5) ∧
      (testGshare 2 [] 5).cfg.variant = .gshare ∧
      (readCtr (testGshare 2 [] 5) .pt (((3#32).toNat % entries (testGshare 2 [] 5)) ^^^
        ((testGshare 2 [] 5).ghr % entries (testGshare 2 [] 5)))).toNat = (if false then 3 else 0) :=
  ⟨⟨rfl, rfl⟩, by decide, rfl, by decide⟩
theorem witness_SaturatingTrainKeepsItsTable_tournament :  -- pc 1: LPT[2] and CHT[1] if taken, GPT[2] if not
    Running (testState testSaturated []) testSaturated ∧ Block.Wf testSaturated ∧
      testSaturated.cfg.variant = .tournament ∧ 1 = (1#32).toNat % entries testSaturated ∧
      2 = (readHist testSaturated 1 ^^^ (1#32).toNat) % entries testSaturated ∧
      2 = ((1#32).toNat % entries testSaturated) ^^^ (testSaturated.ghr % entries testSaturated) ∧
      (readCtr testSaturated .lpt 2).toNat = 3 ∧ (readCtr testSaturated .gpt 2).toNat = 0 ∧
      true = decide (2 ≤ (readCtr testSaturated .lpt 2).toNat) ∧
      false = decide (2 ≤ (readCtr testSaturated .gpt 2).toNat) ∧ (readCtr testSaturated .cht 1).toNat = 0 :=
  ⟨⟨rfl, rfl⟩, by decide, rfl, by decide, by decide, by decide, by decide, by decide, by decide, by decide, by decide⟩
theorem witness_TournamentPredictChoosesGlobalOrLocal :  -- T-T1: s = 1, li = 2, gi = 2
    Running (testState testTournament []) testTournament ∧ MaskValid testTournament ∧
      testTournament.cfg.variant = .tournament ∧ 1 = (1#32).toNat % entries testTournament ∧
      2 = (readHist testTournament 1 ^^^ (1#32).toNat) % entries testTournament ∧
      2 = ((1#32).toNat % entries testTournament) ^^^ (testTournament.ghr % entries testTournament) :=
  ⟨⟨rfl, rfl⟩, by decide, rfl, by decide, by decide, by decide⟩
theorem witness_TournamentTrainWritesItsFiveArrays :  -- T-T1: lp = 1, gp = 0
    Running (testState testTournament []) testTournament ∧ MaskValid testTournament ∧
      testTournament.cfg.variant = .tournament ∧ 1 = (1#32).toNat % entries testTournament ∧
      2 = (readHist testTournament 1 ^^^ (1#32).toNat) % entries testTournament ∧
      2 = ((1#32).toNat % entries testTournament) ^^^ (testTournament.ghr % entries testTournament) ∧
      true = decide (2 ≤ (readCtr testTournament .lpt 2).toNat) ∧
      false = decide (2 ≤ (readCtr testTournament .gpt 2).toNat) :=
  ⟨⟨rfl, rfl⟩, by decide, rfl, by decide, by decide, by decide, by decide, by decide⟩
theorem witness_ChooserMovesTowardsTheOneThatWasRight :
    (false ≠ true ∧ true = true) ∧ (true = true ∧ false ≠ true) := by decide
theorem witness_EngineIndicesLieInRange : MaskValid (testGshare 0 [] 7) ∧ MaskValid (testGshare 32 [] 7) := by decide
theorem witness_IndexFormulasKeepTheLowBits : MaskValid testTournament := by decide
theorem witness_LegalEngineWordsAlwaysComplete :
    Running (testState testPort [.send (.request 0x0FFFFFFFF)]) testPort ∧
      (testState testPort [.send (.request 0x0FFFFFFFF)]).inputs = .send (.request 0x0FFFFFFFF) :: [] :=
  ⟨⟨rfl, rfl⟩, rfl⟩
theorem witness_EngineResponseCarriesPredAndErr :
    Running (testState testPort [.send (.request 0x000000003)]) testPort ∧
      (testState testPort [.send (.request 0x000000003)]).inputs = .send (.request 0x000000003) :: [] ∧
      step (testState testPort [.send (.request 0x000000003)]) =
        .next { testState testPort [] with response := some (.engine 0b001#3) } := ⟨⟨rfl, rfl⟩, rfl, rfl⟩
theorem witness_RequestsNeverChangeTheConfiguration :
    exec (.gsharePredict 3) (testState testPort []) =
      .next { testState testPort [] with response := some (.engine 0b001#3) } := rfl
theorem witness_StatusChangesOnlyByAnErrorThatWritesNothing :
    exec (.illegalOpReserved 0) (testState testPort []) =
      .next (raised (testState testPort []) testPort .illegalRequest (.engine 0b010#3)) := rfl
theorem witness_OnlyTrainShiftsTheHistories :
    (nextOf (exec (.tournamentTrain 1 true) (testState testTournament []))).isSome = true := by decide
theorem witness_OnlyTrainIncAndDecWriteTables :
    (nextOf (exec (.ctInc .cht 1) (testState testTournament []))).isSome = true := by decide
theorem witness_NoCounterMovesByMoreThanOne :
    (nextOf (exec (.ctDec .pt 3) (testState testPort []))).isSome = true := by decide
theorem witness_TrainingIsThePortOperation_gshare :
    Running (testState testPort []) testPort ∧ MaskValid testPort ∧ testPort.cfg.variant = .gshare ∧
      (3#32).toNat = globalIndex testPort 3 := ⟨⟨rfl, rfl⟩, by decide, rfl, by decide⟩
theorem witness_TrainingIsThePortOperation_bimodal :
    Running (testState (testBimodal 5 []) []) (testBimodal 5 []) ∧ MaskValid (testBimodal 5 []) ∧
      (testBimodal 5 []).cfg.variant = .bimodal ∧ (16#32).toNat = pcIndex (testBimodal 5 []) 0x30 :=
  ⟨⟨rfl, rfl⟩, by decide, rfl, by decide⟩
theorem witness_TrainingIsThePortOperation_tournament :
    Running (testState testTournament []) testTournament ∧ MaskValid testTournament ∧
      testTournament.cfg.variant = .tournament ∧ (2#32).toNat = localIndex testTournament 1 ∧
      (2#32).toNat = globalIndex testTournament 1 := ⟨⟨rfl, rfl⟩, by decide, rfl, by decide, by decide⟩
theorem witness_PredictIsPureAndRepeatable :
    exec (predictInstr .gshare 3) (testState testPort []) =
      .next { testState testPort [] with response := some (.engine 0b001#3) } := rfl
theorem witness_TrainAgreesWithThePredictBeforeIt :
    exec (predictInstr .gshare 0) (testState testPort []) =
        .next { testState testPort [] with response := some (.engine 0b000#3) } ∧
      readCtr { testPort with pt := [(0, 1), (1, 1), (2, 2), (3, 3)] } .pt 0 ≠ readCtr testPort .pt 0 :=
  ⟨rfl, by decide⟩
theorem witness_TrainAgreesWithThePredictBeforeIt_tournament :
    exec (predictInstr .tournament 1) (testState testTournament []) =
      .next { testState testTournament [] with response := some (.engine 0b000#3) } := rfl
theorem witness_HistoryBitsAboveKNeverMatter :
    SameButHighHistory (testState (testGshare 2 [] 0b1011) []) (testState (testGshare 2 [] 0b11) []) :=
  ⟨rfl, rfl, .inr ⟨testGshare 2 [] 0b1011, testGshare 2 [] 0b11, rfl, rfl, by decide, rfl, rfl, rfl, rfl, rfl, rfl,
    by decide, fun _ => rfl⟩⟩
theorem witness_PartialFinalRecordIsDiscarded :
    ([0, 0, 0, 1, 0, 0, 0, 0x10, 1, 0, 0] : List Byte).length = 4 + (5 * 1 + 2) ∧ 2 < 5 := by decide
theorem witness_ReplayRecordIsPredictThenTrain :
    Running (testState testTournament []) testTournament ∧ (testState testTournament []).inputs = [] :=
  ⟨⟨rfl, rfl⟩, rfl⟩
theorem witness_ReplayAlwaysEndsDone :
    Running (testState (testBimodal 5 []) []) (testBimodal 5 []) ∧ (testState (testBimodal 5 []) []).inputs = [] :=
  ⟨⟨rfl, rfl⟩, rfl⟩
theorem witness_ProtocolRunsToTheEnd :
    Running (testState testTournament (assemble .lpt (.step 1 true))) testTournament ∧
      followsProtocol (testState testTournament (assemble .lpt (.step 1 true))).inputs = true :=
  ⟨⟨rfl, rfl⟩, by decide⟩
theorem witness_ReportGivesTheExactRate :
    (⟨5, 4⟩ : Counts).branchCount ≠ 0 ∧ (⟨0, 0⟩ : Counts).branchCount = 0 := by decide

end Sys2Proof.Machine
end

section
/-! The counter and history primitives against R12 (spec/00_scope.md). -/

namespace Sys2Proof.Machine

/-- `shift_in` puts the outcome below the old bits, so the library's facts about `Nat.bit` are facts about it. -/
theorem shiftIn_eq_bit (h : History) (o : Bool) : shiftIn h o = Nat.bit o h := (Nat.bit_val o h).symm

@[simp] theorem shiftIn_testBit_zero (h : History) (o : Bool) : (shiftIn h o).testBit 0 = o := by
  rw [shiftIn_eq_bit, Nat.testBit_bit_zero]

@[simp] theorem shiftIn_testBit_succ (h : History) (o : Bool) (n : Nat) :
    (shiftIn h o).testBit (n + 1) = h.testBit n := by
  rw [shiftIn_eq_bit, Nat.testBit_bit_succ]

theorem taken_iff (c : Counter) : taken c = true ↔ 2 ≤ c.toNat := decide_eq_true_iff

/-- Settles O17: the counters by the laws that give `satInc` and `satDec` as numbers, the history as `Nat.bit`. -/
theorem primitivesSaturateAndShift : Obligations.PrimitivesSaturateAndShift := by
  refine ⟨fun c => ?inc, fun c => ?dec, fun _ _ => rfl, taken_iff, fun h o =>
    ⟨?shift, shiftIn_testBit_zero h o, shiftIn_testBit_succ h o⟩⟩
  case inc =>
    rw [satInc_toNat]
    split <;> omega
  case dec =>
    rw [satDec_toNat]
    split <;> omega
  case shift => cases o <;> rfl

end Sys2Proof.Machine
end

section
/-! What a completed request leaves of the block, and that STATUS, CFG and the arrays move only as spec/10_state.md
R16 to R22 say. -/

namespace Sys2Proof.Machine

/-! ### The two ways a request completes -/

/-- The block after request `i` is carried out without an error: five kinds of request write, all others write
nothing (R30). -/
def writtenBlock (b : Block) : Instr → Block
  | .gshareTrain pc o => { b with pt := trainedTable b .pt (globalIndex b pc) o, ghr := shiftIn b.ghr o }
  | .bimodalTrain pc o => { b with pt := trainedTable b .pt (pcIndex b pc) o }
  | .tournamentTrain pc o =>
    { b with
      cht := updatedTable b .cht (pcIndex b pc)
        (fun c => chooserUpdate c (localPrediction b pc) (globalPrediction b pc) o)
      lpt := trainedTable b .lpt (localIndex b pc) o
      lht := shiftedHistories b (pcIndex b pc) o
      gpt := trainedTable b .gpt (globalIndex b pc) o
      ghr := shiftIn b.ghr o }
  | .ctInc u x => setTable b u (updatedTable b u x.toNat satInc)
  | .ctDec u x => setTable b u (updatedTable b u x.toNat satDec)
  | _ => b

/-- The index of a port operation is below N; a request without one meets this (R46). -/
def IndexInRange (b : Block) : Instr → Prop
  | .ctGet _ x => x.toNat < entries b
  | .ctInc _ x => x.toNat < entries b
  | .ctDec _ x => x.toNat < entries b
  | _ => True

/-- The error that a request can raise: none for PREDICT and TRAIN (R76, R77). -/
def MayRaise : Instr → Err → Prop
  | .illegalPredictO1 _, e => e = .illegalRequest
  | .illegalOpReserved _, e => e = .illegalRequest
  | .illegalCtopReserved _ _, e => e = .illegalRequest
  | .ctGet _ _, e => e = .indexRange
  | .ctInc _ _, e => e = .indexRange
  | .ctDec _ _, e => e = .indexRange
  | _, _ => False

theorem MayRaise.illegalRequest_or_indexRange {i : Instr} {e : Err} (h : MayRaise i e) :
    e = .illegalRequest ∨ e = .indexRange := by
  cases i
  case illegalPredictO1 | illegalOpReserved | illegalCtopReserved => exact .inl h
  case ctGet | ctInc | ctDec => exact .inr h
  case gsharePredict | gshareTrain | bimodalPredict | bimodalTrain | tournamentPredict | tournamentTrain => exact h.elim

/-- A request that answers a next state exists on the running block, and either writes what it is meant to, or raises
its error and writes nothing but STATUS (R78). -/
theorem exec_next_cases {i : Instr} {s t : State} (h : exec i s = .next t) :
    ∃ b, Running s b ∧ i.wellFormed b.cfg.variant = true ∧
      ((IndexInRange b i ∧ ∃ r, t = { s with block := some (writtenBlock b i), response := some r }) ∨
        ∃ ch e, MayRaise i e ∧ t = raised s b e (errorResponse ch e)) := by
  obtain ⟨b, hb, he⟩ := exec_next_effect h
  refine ⟨b, hb, ?_⟩
  cases i
  case gsharePredict | gshareTrain | bimodalPredict | bimodalTrain | tournamentPredict | tournamentTrain =>
    obtain ⟨hv, ht⟩ := he
    exact ⟨decide_eq_true hv, .inl ⟨trivial, _, ht⟩⟩
  case illegalPredictO1 | illegalOpReserved => exact ⟨rfl, .inr ⟨.engine, _, rfl, he⟩⟩
  case illegalCtopReserved =>
    obtain ⟨hu, ht⟩ := he
    exact ⟨hu, .inr ⟨.port, _, rfl, ht⟩⟩
  case ctGet | ctInc | ctDec =>
    obtain ⟨hu, ⟨hx, ht⟩ | ⟨-, ht⟩⟩ := he
    · exact ⟨hu, .inl ⟨hx, _, ht⟩⟩
    · exact ⟨hu, .inr ⟨.port, _, rfl, ht⟩⟩

/-! ### The fields of the written block and of an error's answer -/

@[simp] theorem writtenBlock_cfg (b : Block) (i : Instr) : (writtenBlock b i).cfg = b.cfg := by
  cases i
  case ctInc | ctDec => exact setTable_cfg b _ _
  all_goals rfl

@[simp] theorem writtenBlock_status (b : Block) (i : Instr) : (writtenBlock b i).status = b.status := by
  cases i
  case ctInc | ctDec => exact setTable_status b _ _
  all_goals rfl

theorem writtenBlock_ghr_of_ne_train (b : Block) {i : Instr}
    (hi : ∀ pc o, i ≠ .gshareTrain pc o ∧ i ≠ .tournamentTrain pc o) : (writtenBlock b i).ghr = b.ghr := by
  cases i
  case gshareTrain pc o => exact absurd rfl (hi pc o).1
  case tournamentTrain pc o => exact absurd rfl (hi pc o).2
  case ctInc | ctDec => exact setTable_ghr b _ _
  all_goals rfl

theorem writtenBlock_lht_of_ne_train (b : Block) {i : Instr} (hi : ∀ pc o, i ≠ .tournamentTrain pc o) :
    (writtenBlock b i).lht = b.lht := by
  cases i
  case tournamentTrain pc o => exact absurd rfl (hi pc o)
  case ctInc | ctDec => exact setTable_lht b _ _
  all_goals rfl

theorem shiftIn_eq_ite (h : History) (o : Bool) : shiftIn h o = 2 * h + if o then 1 else 0 := by
  cases o <;> rfl

theorem writtenBlock_ghr_of_train (b : Block) {i : Instr} {pc : Pc} {o : Bool}
    (hi : i = .gshareTrain pc o ∨ i = .tournamentTrain pc o) :
    (writtenBlock b i).ghr = 2 * b.ghr + if o then 1 else 0 := by
  obtain rfl | rfl := hi
  all_goals exact shiftIn_eq_ite b.ghr o

theorem readHist_writtenBlock_tournamentTrain (b : Block) (pc : Pc) (o : Bool) (j : Nat) :
    readHist (writtenBlock b (.tournamentTrain pc o)) j =
      if j = pcIndex b pc then 2 * readHist b j + (if o then 1 else 0) else readHist b j := by
  refine (arrRead_shiftedHistories b (pcIndex b pc) j o).trans ?_
  split
  · next hj => rw [hj, shiftIn_eq_ite]
  · rfl

theorem respErr_raised (s : State) (b : Block) (ch : Channel) (e : Err) :
    (raised s b e (errorResponse ch e)).respErr = some (errCode e) := by
  cases ch <;> cases e <;> rfl

/-! ### What requests change -/

/-- Settles O36: neither what a request writes nor an error touches CFG or the waiting inputs. -/
theorem requestsNeverChangeTheConfiguration : Obligations.RequestsNeverChangeTheConfiguration := by
  intro i s t h
  obtain ⟨b, hb, -, ⟨-, r, rfl⟩ | ⟨ch, e, -, rfl⟩⟩ := exec_next_cases h
  · exact ⟨b, _, hb.1, rfl, writtenBlock_cfg b i, rfl⟩
  · exact ⟨b, _, hb.1, rfl, rfl, rfl⟩

/-- Settles O37: a request without an error keeps STATUS, and one with an error keeps everything else. -/
theorem statusChangesOnlyByAnErrorThatWritesNothing :
    Obligations.StatusChangesOnlyByAnErrorThatWritesNothing := by
  intro i s t h
  obtain ⟨b, hb, -, ⟨-, r, rfl⟩ | ⟨ch, e, he, rfl⟩⟩ := exec_next_cases h
  · exact ⟨b, _, hb.1, rfl, .inl (writtenBlock_status b i)⟩
  · refine ⟨b, _, hb.1, rfl, .inr ⟨e, he.illegalRequest_or_indexRange, rfl, ?_⟩⟩
    rw [respErr_raised]
    obtain rfl | rfl := he.illegalRequest_or_indexRange
    · rfl
    · rfl

/-- Settles O38: by the histories of the written block; a TRAIN raises no error, and an error writes no history. -/
theorem onlyTrainShiftsTheHistories : Obligations.OnlyTrainShiftsTheHistories := by
  intro i s t h
  obtain ⟨b, hb, -, ⟨-, r, rfl⟩ | ⟨ch, e, he, rfl⟩⟩ := exec_next_cases h
  · refine ⟨b, _, hb.1, rfl, fun _ _ => writtenBlock_ghr_of_train b, writtenBlock_ghr_of_ne_train b, ?_,
      writtenBlock_lht_of_ne_train b⟩
    rintro pc o rfl
    exact readHist_writtenBlock_tournamentTrain b pc o
  · refine ⟨b, _, hb.1, rfl, ?_, fun _ => rfl, ?_, fun _ => rfl⟩
    · rintro pc o (rfl | rfl)
      all_goals exact he.elim
    · rintro pc o rfl
      exact he.elim

/-- Settles O39: every request but the five that write leaves the block as it was, and an error changes only STATUS. -/
theorem onlyTrainIncAndDecWriteTables : Obligations.OnlyTrainIncAndDecWriteTables := by
  intro i s t h
  obtain ⟨b, hb, -, ⟨-, r, rfl⟩ | ⟨ch, e, -, rfl⟩⟩ := exec_next_cases h
  · cases i
    case gshareTrain pc o => exact .inl ⟨pc, o, .inl rfl⟩
    case bimodalTrain pc o => exact .inl ⟨pc, o, .inr (.inl rfl)⟩
    case tournamentTrain pc o => exact .inl ⟨pc, o, .inr (.inr rfl)⟩
    case ctInc u x => exact .inr (.inl ⟨u, x, .inl rfl⟩)
    case ctDec u x => exact .inr (.inl ⟨u, x, .inr rfl⟩)
    all_goals exact .inr (.inr ⟨b, b, hb.1, rfl, fun _ => rfl, rfl, rfl⟩)
  · exact .inr (.inr ⟨b, _, hb.1, rfl, tableOf_status b _, rfl, rfl⟩)

end Sys2Proof.Machine
end

section
/-! The invariant of reachable states: every index an engine forms is below N, every write of a request keeps its table
canonical and in a table the VARIANT has, and so every step keeps `State.Wf` (spec/10_state.md R16 to R22,
spec/41_gshare.md R56). -/

namespace Sys2Proof.Machine

/-! ### Indices are in range (R56) -/

theorem masked_lt {b : Block} (h : MaskValid b) (x : Nat) : masked b x < entries b := by
  rw [masked_eq_mod h]
  exact Nat.mod_lt _ (Nat.two_pow_pos _)

theorem pcIndex_lt {b : Block} (h : MaskValid b) (pc : Pc) : pcIndex b pc < entries b := masked_lt h _

theorem localIndex_lt {b : Block} (h : MaskValid b) (pc : Pc) : localIndex b pc < entries b := masked_lt h _

theorem globalIndex_lt {b : Block} (h : MaskValid b) (pc : Pc) : globalIndex b pc < entries b :=
  Nat.xor_lt_two_pow (masked_lt h _) (masked_lt h _)

/-! ### One rule per update of the block -/

/-- The invariant, with its four tables as one clause. -/
theorem block_wf_iff {b : Block} : Block.Wf b ↔
    MaskValid b ∧ Status.Wf b.status ∧ (∀ t, Table.Wf b t) ∧ HistoryTable.Wf b ∧
      (b.cfg.variant.hasGhr = false → b.ghr = 0) := by
  constructor
  · rintro ⟨hm, hs, hpt, hlpt, hgpt, hcht, hlht, hghr⟩
    exact ⟨hm, hs, fun t => by cases t <;> assumption, hlht, hghr⟩
  · rintro ⟨hm, hs, ht, hlht, hghr⟩
    exact ⟨hm, hs, ht .pt, ht .lpt, ht .gpt, ht .cht, hlht, hghr⟩

theorem Block.Wf.maskValid {b : Block} (h : Block.Wf b) : MaskValid b := (block_wf_iff.1 h).1

theorem Block.Wf.table {b : Block} (h : Block.Wf b) (t : TableName) : Table.Wf b t := by
  obtain ⟨-, -, ht, -, -⟩ := block_wf_iff.1 h
  exact ht t

theorem Block.Wf.historyTable {b : Block} (h : Block.Wf b) : HistoryTable.Wf b := by
  obtain ⟨-, -, -, hl, -⟩ := block_wf_iff.1 h
  exact hl

@[simp] theorem entries_setTable (b : Block) (t : TableName) (l : Table) : entries (setTable b t l) = entries b := by
  rw [entries, entries, setTable_cfg]

theorem updatedTable_canonical {b : Block} {t : TableName} {i : Nat} (h : Table.Wf b t) (hi : i < entries b)
    (f : Counter → Counter) : ArrWf (tableFill t) (entries b) (updatedTable b t i f) :=
  arrWrite_wf h.1 hi _

theorem trainedTable_canonical {b : Block} {t : TableName} {i : Nat} (h : Table.Wf b t) (hi : i < entries b)
    (o : Bool) : ArrWf (tableFill t) (entries b) (trainedTable b t i o) :=
  updatedTable_canonical h hi _

theorem shiftedHistories_canonical {b : Block} {i : Nat} (h : HistoryTable.Wf b) (hi : i < entries b) (o : Bool) :
    ArrWf historyFill (entries b) (shiftedHistories b i o) :=
  arrWrite_wf h.1 hi _

theorem Block.Wf.with_table {b : Block} (h : Block.Wf b) {t : TableName} (ht : HasTable b t) {l : Table}
    (hl : ArrWf (tableFill t) (entries b) l) : Block.Wf (setTable b t l) := by
  obtain ⟨hm, hs, htab, hlht, hghr⟩ := block_wf_iff.1 h
  refine block_wf_iff.2 ⟨by simpa [MaskValid] using hm, by simpa using hs, fun u => ?_,
    by simpa [HistoryTable.Wf] using hlht, by simpa using hghr⟩
  by_cases hu : u = t
  · subst hu
    exact ⟨by simpa using hl, by simp [show b.cfg.variant.hasTable u = true from ht]⟩
  · simpa [Table.Wf, tableOf_setTable_ne b l hu] using htab u

theorem Block.Wf.with_ghr {b : Block} (h : Block.Wf b) (hg : b.cfg.variant.hasGhr = true) (x : History) :
    Block.Wf { b with ghr := x } := by
  obtain ⟨hm, hs, hpt, hlpt, hgpt, hcht, hlht, -⟩ := h
  exact ⟨hm, hs, hpt, hlpt, hgpt, hcht, hlht, fun hno => absurd (hg.symm.trans hno) (by decide)⟩

theorem Block.Wf.with_lht {b : Block} (h : Block.Wf b) (hh : b.cfg.variant.hasLht = true) {l : HistoryTable}
    (hl : ArrWf historyFill (entries b) l) : Block.Wf { b with lht := l } := by
  obtain ⟨hm, hs, hpt, hlpt, hgpt, hcht, -, hghr⟩ := h
  exact ⟨hm, hs, hpt, hlpt, hgpt, hcht, ⟨hl, fun hno => absurd (hh.symm.trans hno) (by decide)⟩, hghr⟩

theorem Block.Wf.with_status {b : Block} (h : Block.Wf b) {x : Status} (hx : Status.Wf x) :
    Block.Wf { b with status := x } := by
  obtain ⟨hm, -, harrays⟩ := h
  exact ⟨hm, hx, harrays⟩

/-! ### Requests, construction and the step -/

/-- The block a request of the VARIANT leaves meets the invariant. -/
theorem writtenBlock_wf {b : Block} {i : Instr} (h : Block.Wf b) (hi : i.wellFormed b.cfg.variant = true)
    (hx : IndexInRange b i) : Block.Wf (writtenBlock b i) := by
  have hm := h.maskValid
  cases i
  case gshareTrain pc o =>
    have hv : b.cfg.variant = .gshare := of_decide_eq_true hi
    have hpt : HasTable b .pt := by simp [HasTable, hv, Variant.hasTable]
    have hghr : b.cfg.variant.hasGhr = true := by simp [hv, Variant.hasGhr]
    have wpt := h.with_table hpt (trainedTable_canonical (h.table .pt) (globalIndex_lt hm pc) o)
    exact wpt.with_ghr hghr (shiftIn b.ghr o)
  case bimodalTrain pc o =>
    have hv : b.cfg.variant = .bimodal := of_decide_eq_true hi
    have hpt : HasTable b .pt := by simp [HasTable, hv, Variant.hasTable]
    exact h.with_table hpt (trainedTable_canonical (h.table .pt) (pcIndex_lt hm pc) o)
  case tournamentTrain pc o =>
    have hv : b.cfg.variant = .tournament := of_decide_eq_true hi
    have hcht : HasTable b .cht := by simp [HasTable, hv, Variant.hasTable]
    have hlpt : HasTable b .lpt := by simp [HasTable, hv, Variant.hasTable]
    have hgpt : HasTable b .gpt := by simp [HasTable, hv, Variant.hasTable]
    have hlht : b.cfg.variant.hasLht = true := by simp [hv, Variant.hasLht]
    have hghr : b.cfg.variant.hasGhr = true := by simp [hv, Variant.hasGhr]
    have wcht := h.with_table hcht (updatedTable_canonical (h.table .cht) (pcIndex_lt hm pc)
      fun c => chooserUpdate c (localPrediction b pc) (globalPrediction b pc) o)
    have wlpt := wcht.with_table hlpt (trainedTable_canonical (h.table .lpt) (localIndex_lt hm pc) o)
    have wgpt := wlpt.with_table hgpt (trainedTable_canonical (h.table .gpt) (globalIndex_lt hm pc) o)
    have wlht := wgpt.with_lht hlht (shiftedHistories_canonical h.historyTable (pcIndex_lt hm pc) o)
    exact wlht.with_ghr hghr (shiftIn b.ghr o)
  case ctInc u x | ctDec u x => exact h.with_table hi (updatedTable_canonical (h.table u) hx _)
  all_goals exact h

/-- Every request keeps the invariant, whether it completes or raises its error. -/
theorem exec_keeps_wf {i : Instr} {s t : State} (hs : s.Wf) (h : exec i s = .next t) : t.Wf := by
  obtain ⟨b, hb, hi, ⟨hx, r, rfl⟩ | ⟨ch, e, he, rfl⟩⟩ := exec_next_cases h
  · rintro _ ⟨⟩
    exact writtenBlock_wf (hs b hb.1) hi hx
  · rintro _ ⟨⟩
    exact (hs b hb.1).with_status (.inr ⟨rfl, he.illegalRequest_or_indexRange⟩)

/-- A construction that answers a next state leaves a fresh block, or none (R75, R92). -/
theorem construct_next_block {code : BitVec 2} {n : Nat} {s t : State} (h : construct code n s = .next t) :
    t.block = none ∨ ∃ v k, t.block = some (Block.fresh v k) := by
  unfold construct at h
  split at h
  · cases h
    exact .inl rfl
  · next v _ =>
    split_ifs at h with hn hk
    · cases h
      exact .inl rfl
    · cases h
      exact .inr ⟨v, _, rfl⟩

theorem construct_gives_wf {code : BitVec 2} {n : Nat} {s t : State} (h : construct code n s = .next t) : t.Wf := by
  intro b hb
  obtain ht | ⟨v, k, ht⟩ := construct_next_block h
  · simp [ht] at hb
  · obtain rfl : Block.fresh v k = b := by simpa [ht] using hb
    exact fresh_wf v k

theorem idle_next {s t : State} (h : idle s = .next t) : t = s := by
  obtain ⟨b, -, hk⟩ := accepting_next h
  cases hk
  rfl

/-- Settles O15: a step is a construction, an accepted request, or idle, and each of the three keeps the invariant. -/
theorem stepKeepsTheInvariant : Obligations.StepKeepsTheInvariant := by
  intro s t hs h
  obtain ⟨code, n, rest, -, hstep⟩ | ⟨b, w, rest, -, -, hstep⟩ | ⟨-, -, hstep⟩ := step_cases s
  · exact construct_gives_wf (hstep.symm.trans h)
  · exact exec_keeps_wf (s := { s with inputs := rest }) hs (hstep.symm.trans h)
  · rw [idle_next (hstep.symm.trans h)]
    exact hs

end Sys2Proof.Machine
end

section
/-! The arrays, the purity of PREDICT, and which request a step runs (spec/20_memory.md R27, R30, R32). -/

namespace Sys2Proof.Machine

/-! ### A canonical array is determined by its reads (R27) -/

/-- A canonical array lists exactly the indices that do not read the fill, each with what it reads. -/
theorem mem_iff_arrRead {α : Type} {d : α} {n : Nat} {l : List (Nat × α)} (hl : ArrWf d n l) (p : Nat × α) :
    p ∈ l ↔ arrRead d l p.1 = p.2 ∧ p.2 ≠ d := by
  obtain ⟨hrise, hmem⟩ := hl
  induction l with
  | nil => simpa using fun h => h.symm
  | cons q l ih =>
    obtain ⟨hq, hrise⟩ := List.pairwise_cons.1 hrise
    rw [List.mem_cons, arrRead_cons]
    split
    · next hqp =>
      have hp : p ∉ l := fun hp => (hq p hp).ne hqp
      constructor
      · rintro (rfl | hp')
        · exact ⟨rfl, (hmem p (by simp)).2⟩
        · exact absurd hp' hp
      · rintro ⟨hv, -⟩
        exact .inl (Prod.ext hqp.symm hv.symm)
    · next hqp =>
      have hne : p ≠ q := fun h => hqp (by rw [h])
      rw [← ih hrise fun r hr => hmem r (by simp [hr])]
      simp [hne]

theorem eq_of_arrRead_eq {α : Type} {d : α} {n : Nat} {l m : List (Nat × α)} (hl : ArrWf d n l) (hm : ArrWf d n m)
    (h : ∀ i, arrRead d l i = arrRead d m i) : l = m := by
  have : Std.Irrefl fun p q : Nat × α => p.1 < q.1 := ⟨fun p => Nat.lt_irrefl p.1⟩
  have : Std.Antisymm fun p q : Nat × α => p.1 < q.1 := ⟨fun _ _ hpq hqp => (Nat.lt_asymm hpq hqp).elim⟩
  refine hl.1.eq_of_mem_iff hm.1 fun p => ?_
  rw [mem_iff_arrRead hl, mem_iff_arrRead hm, h]

/-- Settles O16: arrays that read alike list the same pairs, and a rising list is determined by its pairs. -/
theorem equalReadsAreEqualTables : Obligations.EqualReadsAreEqualTables :=
  ⟨fun _ _ _ _ => eq_of_arrRead_eq, fun _ _ _ => eq_of_arrRead_eq⟩

/-! ### PREDICT (R30, R58) -/

/-- No request reads the latest answer. -/
theorem exec_with_response (i : Instr) (s : State) (r : Option Response) :
    exec i { s with response := r } = exec i s := by
  cases i <;> rfl

@[simp] theorem writtenBlock_predictInstr (b : Block) (v : Variant) (pc : Pc) :
    writtenBlock b (predictInstr v pc) = b := by
  cases v <;> rfl

theorem not_mayRaise_predictInstr (v : Variant) (pc : Pc) (e : Err) : ¬ MayRaise (predictInstr v pc) e := by
  cases v <;> exact id

/-- All that a PREDICT leaves behind is its answer. -/
theorem exec_predictInstr_next {v : Variant} {pc : Pc} {s t : State} (h : exec (predictInstr v pc) s = .next t) :
    ∃ r, t = { s with response := some r } := by
  obtain ⟨b, hb, -, ⟨-, r, rfl⟩ | ⟨ch, e, he, -⟩⟩ := exec_next_cases h
  · exact ⟨r, by rw [writtenBlock_predictInstr, ← hb.1]⟩
  · exact absurd he (not_mayRaise_predictInstr v pc e)

/-- Settles O42: the state after a PREDICT differs from the one before in the answer alone, which no request reads. -/
theorem predictIsPureAndRepeatable : Obligations.PredictIsPureAndRepeatable := by
  intro v pc s t h
  obtain ⟨r, rfl⟩ := exec_predictInstr_next h
  exact ⟨rfl, rfl, (exec_with_response _ s _).trans h⟩

/-! ### The request a step runs (R32, R44, R83) -/

/-- With no running block, it makes no difference what an accepted request would have done. -/
theorem accepting_eq_of_not_running {s : State} (h : ∀ b, ¬ Running s b)
    (k k' : Block → Host.Outcome State Fault Refusal) : accepting s k = accepting s k' := by
  cases hb : s.block with
  | none => rw [accepting, accepting, hb]
  | some b =>
    have hf : b.status.fault = true := by
      by_contra hf
      exact h b ⟨hb, by simpa using hf⟩
    rw [accepting_of_faulted hb hf, accepting_of_faulted hb hf]

/-- With no running block, the stored inputs are not read while waiting for a construction. -/
theorem awaitConstruction_with_inputs {s : State} (h : ∀ b, ¬ Running s b) (l waiting : List Input) :
    awaitConstruction { s with inputs := l } waiting = awaitConstruction s waiting := by
  induction waiting with
  | nil => exact accepting_eq_of_not_running h _ _
  | cons x waiting ih =>
    cases x with
    | construct code n => rfl
    | send w => exact ih

/-- With no running block, a step waits for a construction from the oldest input on. -/
theorem step_of_not_running {s : State} (h : ∀ b, ¬ Running s b) : step s = awaitConstruction s s.inputs := by
  unfold step
  split
  · next hs => rw [hs]; rfl
  · next hs => rw [hs]; rfl
  · next w rest hs => rw [acceptedRequest_of_not_running h, hs]; rfl

theorem step_send_of_running {s : State} {b : Block} (h : Running s b) {w : Wire} {rest : List Input}
    (hs : s.inputs = .send w :: rest) : step s = exec (decode b.cfg.variant w) { s with inputs := rest } := by
  unfold step
  simp only [hs, acceptedRequest_of_running h]

/-- Settles O6: a running block accepts the word, and where no block runs the word is passed over. -/
theorem stepRunsTheDecodedRequest : Obligations.StepRunsTheDecodedRequest := by
  intro s b x rest hb hs
  refine ⟨fun hr => step_send_of_running ⟨hb, hr⟩ hs, fun hf => ?_⟩
  have hn := not_running_of_faulted hb hf
  calc step s = awaitConstruction s s.inputs := step_of_not_running hn
    _ = awaitConstruction s rest := by rw [hs]; rfl
    _ = awaitConstruction { s with inputs := rest } rest := (awaitConstruction_with_inputs hn rest rest).symm
    _ = step { s with inputs := rest } := (step_of_not_running (s := { s with inputs := rest }) hn).symm

end Sys2Proof.Machine
end

section
/-! The request words (spec/30_encoding.md): every engine word is of one of four forms and every port word is its two
fields, so what decoding does with each form settles the statements about words and the encoder. -/

namespace Sys2Proof

/-! ### The forms of a word (R36, R38, R39, R41) -/

/-- A word of the form ILLEGAL.PREDICT_O1: OP = 0b00 with O = 1 (R38). -/
def predictO1Word (bits : BitVec 32) : ReqWord := 0b00#2 ++ 0b1#1 ++ bits

/-- A word of the form ILLEGAL.OP_RESERVED: OP = 0b1x (R39). -/
def opReservedWord (bits : BitVec 34) : ReqWord := 0b1#1 ++ bits

theorem eq_requestWord_fields (w : ReqWord) : w = reqOp w ++ BitVec.ofBool (reqOutcome w) ++ reqPc w := by
  apply BitVec.eq_of_getLsbD_eq
  intro i hi
  rw [getLsbD_requestWord]
  split_ifs with hpc ho
  · simp [reqPc, hpc]
  · obtain rfl : i = 32 := by omega
    simp [reqOutcome]
  · have hop : i - 33 < 2 := by omega
    have hsum : 33 + (i - 33) = i := by omega
    simp [reqOp, hop, hsum]

theorem eq_opReservedWord_low34 {w : ReqWord} (h : w.getLsbD 34 = true) :
    w = opReservedWord (w.extractLsb' 0 34) := by
  apply BitVec.eq_of_getLsbD_eq
  intro i hi
  rw [opReservedWord, getLsbD_reservedWord]
  split_ifs with hlow
  · simp [hlow]
  · obtain rfl : i = 34 := by omega
    simpa using h

theorem eq_portWord_fields (w : PortWord) : w = portWord (portOp w) (portIndex w) := by
  apply BitVec.eq_of_getLsbD_eq
  intro i hi
  rw [getLsbD_portWord]
  split_ifs with hindex
  · simp [portIndex, hindex]
  · have hop : i - 32 < 2 := by omega
    have hsum : 32 + (i - 32) = i := by omega
    simp [portOp, hop, hsum]

/-- A 2-bit field has its high bit set, or is 0b00 or 0b01. -/
theorem twoBits_cases (x : BitVec 2) : x.getLsbD 1 = true ∨ x = 0b00#2 ∨ x = 0b01#2 := by
  revert x; decide

theorem reqOp_high (w : ReqWord) : (reqOp w).getLsbD 1 = w.getLsbD 34 := by
  rw [reqOp, BitVec.getLsbD_extractLsb']
  rfl

/-- Every engine word is a PREDICT, a TRAIN, or one of the two illegal forms (R37 to R39). -/
theorem engineWord_cases (w : ReqWord) :
    (∃ pc, w = predictWord pc) ∨ (∃ pc o, w = trainWord pc o) ∨ (∃ bits, w = predictO1Word bits) ∨
      ∃ bits, w = opReservedWord bits := by
  have hw := eq_requestWord_fields w
  obtain hhigh | hop | hop := twoBits_cases (reqOp w)
  · rw [reqOp_high] at hhigh
    exact .inr (.inr (.inr ⟨_, eq_opReservedWord_low34 hhigh⟩))
  · rw [hop] at hw
    cases ho : reqOutcome w with
    | false =>
      rw [ho] at hw
      exact .inl ⟨_, hw⟩
    | true =>
      rw [ho] at hw
      exact .inr (.inr (.inl ⟨_, hw⟩))
  · rw [hop] at hw
    exact .inr (.inl ⟨_, _, hw⟩)

/-! ### Decoding each form (R37, R45) -/

@[simp] theorem decodeRequest_predictWord (v : Variant) (pc : Pc) :
    decodeRequest v (predictWord pc) = predictInstr v pc := by
  have hop : reqOp (predictWord pc) = 0b00#2 := reqOp_requestWord 0b00#2 0b0#1 pc
  have ho : reqOutcome (predictWord pc) = false := reqOutcome_requestWord 0b00#2 0b0#1 pc
  have hpc : reqPc (predictWord pc) = pc := reqPc_requestWord 0b00#2 0b0#1 pc
  simp [decodeRequest, hop, ho, hpc]

@[simp] theorem decodeRequest_trainWord (v : Variant) (pc : Pc) (o : Bool) :
    decodeRequest v (trainWord pc o) = trainInstr v pc o := by
  have hop : reqOp (trainWord pc o) = 0b01#2 := reqOp_requestWord 0b01#2 (BitVec.ofBool o) pc
  have ho : reqOutcome (trainWord pc o) = o := by
    rw [trainWord, reqOutcome_requestWord]
    simp
  have hpc : reqPc (trainWord pc o) = pc := reqPc_requestWord 0b01#2 (BitVec.ofBool o) pc
  simp [decodeRequest, hop, ho, hpc]

@[simp] theorem decodeRequest_predictO1Word (v : Variant) (bits : BitVec 32) :
    decodeRequest v (predictO1Word bits) = .illegalPredictO1 bits := by
  have hop : reqOp (predictO1Word bits) = 0b00#2 := reqOp_requestWord 0b00#2 0b1#1 bits
  have ho : reqOutcome (predictO1Word bits) = true := reqOutcome_requestWord 0b00#2 0b1#1 bits
  have hpc : reqPc (predictO1Word bits) = bits := reqPc_requestWord 0b00#2 0b1#1 bits
  simp [decodeRequest, hop, ho, hpc]

@[simp] theorem decodeRequest_opReservedWord (v : Variant) (bits : BitVec 34) :
    decodeRequest v (opReservedWord bits) = .illegalOpReserved bits := by
  have hhigh : (reqOp (opReservedWord bits)).getLsbD 1 = true := reqOp_reservedWord_high bits
  have hop : reqOp (opReservedWord bits) ≠ 0b00#2 ∧ reqOp (opReservedWord bits) ≠ 0b01#2 := by
    constructor <;> intro h <;> simp [h] at hhigh
  have hbits : (opReservedWord bits).extractLsb' 0 34 = bits := low34_reservedWord 0b1#1 bits
  rw [decodeRequest, if_neg hop.1, if_neg hop.2, hbits]

@[simp] theorem decodePort_portWord (t : TableName) (ctop : BitVec 2) (index : BitVec 32) :
    decodePort t (portWord ctop index) =
      if ctop = 0b00#2 then .ctGet t index
      else if ctop = 0b01#2 then .ctInc t index
      else if ctop = 0b10#2 then .ctDec t index
      else .illegalCtopReserved t index := by
  rw [decodePort, portOp_portWord, portIndex_portWord]

/-! ### The requests of an engine -/

@[simp] theorem encode_predictInstr (v : Variant) (pc : Pc) :
    encode (predictInstr v pc) = .request (predictWord pc) := by
  cases v <;> rfl

@[simp] theorem encode_trainInstr (v : Variant) (pc : Pc) (o : Bool) :
    encode (trainInstr v pc o) = .request (trainWord pc o) := by
  cases v <;> rfl

@[simp] theorem wellFormed_predictInstr (v : Variant) (pc : Pc) : (predictInstr v pc).wellFormed v = true := by
  cases v <;> rfl

@[simp] theorem wellFormed_trainInstr (v : Variant) (pc : Pc) (o : Bool) :
    (trainInstr v pc o).wellFormed v = true := by
  cases v <;> rfl

/-! ### Encoding and decoding are inverse (R45) -/

/-- Settles O2: by the decoding of the form that each row of the opcode table is encoded in. -/
theorem encodeThenDecodeGivesTheRequestBack : Obligations.EncodeThenDecodeGivesTheRequestBack := by
  intro v i hi
  cases i
  case gsharePredict pc | bimodalPredict pc | tournamentPredict pc =>
    obtain rfl := of_decide_eq_true hi
    exact decodeRequest_predictWord _ pc
  case gshareTrain pc o | bimodalTrain pc o | tournamentTrain pc o =>
    obtain rfl := of_decide_eq_true hi
    exact decodeRequest_trainWord _ pc o
  case illegalPredictO1 bits => exact decodeRequest_predictO1Word v bits
  case illegalOpReserved bits => exact decodeRequest_opReservedWord v bits
  case ctGet t index | ctInc t index | ctDec t index | illegalCtopReserved t index => exact decodePort_portWord t _ index

theorem wellFormed_decodePort (v : Variant) (t : TableName) (w : PortWord) :
    (decodePort t w).wellFormed v = v.hasTable t := by
  unfold decodePort
  split_ifs <;> rfl

theorem wellFormed_decodeRequest (v : Variant) (w : ReqWord) : (decodeRequest v w).wellFormed v = true := by
  obtain ⟨pc, rfl⟩ | ⟨pc, o, rfl⟩ | ⟨bits, rfl⟩ | ⟨bits, rfl⟩ := engineWord_cases w
  · rw [decodeRequest_predictWord, wellFormed_predictInstr]
  · rw [decodeRequest_trainWord, wellFormed_trainInstr]
  · rw [decodeRequest_predictO1Word]
    rfl
  · rw [decodeRequest_opReservedWord]
    rfl

/-- A word decodes to a request of the block exactly when the block has the interface it is sent on. -/
theorem wellFormed_decode (v : Variant) (x : Wire) : (decode v x).wellFormed v = x.wellFormed v := by
  cases x with
  | request w => exact wellFormed_decodeRequest v w
  | port t w => exact wellFormed_decodePort v t w

theorem encode_decodeRequest (v : Variant) (w : ReqWord) : encode (decodeRequest v w) = .request w := by
  obtain ⟨pc, rfl⟩ | ⟨pc, o, rfl⟩ | ⟨bits, rfl⟩ | ⟨bits, rfl⟩ := engineWord_cases w
  · rw [decodeRequest_predictWord, encode_predictInstr]
  · rw [decodeRequest_trainWord, encode_trainInstr]
  · rw [decodeRequest_predictO1Word]
    rfl
  · rw [decodeRequest_opReservedWord]
    rfl

theorem portCode_cases (x : BitVec 2) : x = 0b00#2 ∨ x = 0b01#2 ∨ x = 0b10#2 ∨ x = 0b11#2 := by
  revert x; decide

theorem encode_decodePort (t : TableName) (w : PortWord) : encode (decodePort t w) = .port t w := by
  rw [eq_portWord_fields w, decodePort_portWord]
  obtain h | h | h | h := portCode_cases (portOp w)
  all_goals
    rw [h]
    rfl

/-- The encoding of the decoded word is the word, on every VARIANT and every interface. -/
theorem encode_decode (v : Variant) (x : Wire) : encode (decode v x) = x := by
  cases x with
  | request w => exact encode_decodeRequest v w
  | port t w => exact encode_decodePort t w

/-- Settles O3: the decoded request encodes to the word, and is the only one that does since decoding undoes encoding. -/
theorem everyWordIsTheEncodingOfOneRequest : Obligations.EveryWordIsTheEncodingOfOneRequest := by
  intro v x hx
  refine ⟨(wellFormed_decode v x).trans hx, encode_decode v x, ?_⟩
  rintro i hi rfl
  exact (encodeThenDecodeGivesTheRequestBack v i hi).symm

/-- Settles O1: each of the thirteen words is computed. -/
theorem decodeReadsTheWordsOfTheSpec : Obligations.DecodeReadsTheWordsOfTheSpec := by
  unfold Obligations.DecodeReadsTheWordsOfTheSpec
  decide

end Sys2Proof
end

section
/-! What a step answers to an engine word, what it refuses, and what each written line sends (spec/30_encoding.md R38 to
R42). -/

namespace Sys2Proof.Machine

/-! ### Which forms are illegal (R38, R39) -/

theorem illegalWord_requestWord (op : BitVec 2) (o : BitVec 1) (pc : Pc) :
    IllegalWord (op ++ o ++ pc) ↔
      op.getLsbD 1 = true ∨ (op.getLsbD 1 = false ∧ op.getLsbD 0 = false ∧ o.getLsbD 0 = true) := by
  rw [IllegalWord, getLsbD_requestWord, getLsbD_requestWord, getLsbD_requestWord]
  rfl

theorem not_illegalWord_predictWord (pc : Pc) : ¬ IllegalWord (predictWord pc) := by
  rw [predictWord, illegalWord_requestWord]
  decide

theorem not_illegalWord_trainWord (pc : Pc) (o : Bool) : ¬ IllegalWord (trainWord pc o) := by
  rw [trainWord, illegalWord_requestWord]
  revert o; decide

theorem illegalWord_predictO1Word (bits : BitVec 32) : IllegalWord (predictO1Word bits) := by
  rw [predictO1Word, illegalWord_requestWord]
  decide

theorem illegalWord_opReservedWord (bits : BitVec 34) : IllegalWord (opReservedWord bits) :=
  .inl (getLsbD_reservedWord 0b1#1 bits 34)

/-- On a running block an illegal engine word raises ILLEGAL_REQUEST, whatever its free bits (R78). -/
theorem exec_decodeRequest_of_illegalWord {s : State} {b : Block} (h : Running s b) (v : Variant) {w : ReqWord}
    (hw : IllegalWord w) :
    exec (decodeRequest v w) s = .next (raised s b .illegalRequest (.engine 0b010#3)) := by
  obtain ⟨pc, rfl⟩ | ⟨pc, o, rfl⟩ | ⟨bits, rfl⟩ | ⟨bits, rfl⟩ := engineWord_cases w
  · exact absurd hw (not_illegalWord_predictWord pc)
  · exact absurd hw (not_illegalWord_trainWord pc o)
  · rw [decodeRequest_predictO1Word]
    exact accepting_of_running h _
  · rw [decodeRequest_opReservedWord]
    exact accepting_of_running h _

theorem step_request_of_running {s : State} {b : Block} (h : Running s b) {w : ReqWord} {rest : List Input}
    (hs : s.inputs = .send (.request w) :: rest) :
    step s = exec (decodeRequest b.cfg.variant w) { s with inputs := rest } := step_send_of_running h hs

/-- Settles O4: of the four forms of an engine word two are illegal, and the other two are PREDICT and TRAIN. -/
theorem illegalWordsAreExactlyTheReservedOnes : Obligations.IllegalWordsAreExactlyTheReservedOnes := by
  intro s b w rest hb hs
  refine ⟨fun hw => ?_, fun hw => ?_⟩
  · rw [step_request_of_running hb hs]
    exact exec_decodeRequest_of_illegalWord (s := { s with inputs := rest }) hb _ hw
  · obtain ⟨pc, rfl⟩ | ⟨pc, o, rfl⟩ | ⟨bits, rfl⟩ | ⟨bits, rfl⟩ := engineWord_cases w
    · exact ⟨pc, .inl ⟨rfl, decodeRequest_predictWord _ pc⟩⟩
    · exact ⟨pc, .inr ⟨o, rfl, decodeRequest_trainWord _ pc o⟩⟩
    · exact absurd (illegalWord_predictO1Word bits) hw
    · exact absurd (illegalWord_opReservedWord bits) hw

/-! ### The response of an engine word (R40) -/

theorem engineRsp_err (e : Err) (pred : Bool) : (engineRsp e pred).extractLsb' 1 2 = errCode e := by
  cases e <;> cases pred <;> rfl

theorem engineRsp_pred (e : Err) (pred : Bool) : (engineRsp e pred).getLsbD 0 = pred := by
  cases e <;> cases pred <;> rfl

theorem exec_predictInstr_response {v : Variant} {pc : Pc} {s t : State} (h : exec (predictInstr v pc) s = .next t) :
    ∃ pred, t.response = some (.engine (engineRsp .noError pred)) := by
  obtain ⟨b, -, he⟩ := exec_next_effect h
  cases v
  all_goals
    obtain ⟨-, rfl⟩ := he
    exact ⟨_, rfl⟩

theorem exec_trainInstr_response {v : Variant} {pc : Pc} {o : Bool} {s t : State}
    (h : exec (trainInstr v pc o) s = .next t) : t.response = some (.engine (engineRsp .noError false)) := by
  obtain ⟨b, -, he⟩ := exec_next_effect h
  cases v
  all_goals
    obtain ⟨-, rfl⟩ := he
    rfl

theorem predictWord_high3 (pc : Pc) : (predictWord pc).extractLsb' 32 3 = 0b000#3 := by
  apply BitVec.eq_of_getLsbD_eq
  intro i hi
  rw [BitVec.getLsbD_extractLsb', predictWord, getLsbD_requestWord, if_neg (by omega)]
  simp

/-- Settles O35: by the answer to each form; an illegal word's is 0b010, and only a PREDICT's can have PRED = 1. -/
theorem engineResponseCarriesPredAndErr : Obligations.EngineResponseCarriesPredAndErr := by
  intro s t b w rest hb hs h
  rw [step_request_of_running hb hs] at h
  by_cases hw : IllegalWord w
  · rw [exec_decodeRequest_of_illegalWord (s := { s with inputs := rest }) hb _ hw] at h
    cases h
    exact ⟨0b010#3, rfl, fun _ => rfl, absurd hw, nofun⟩
  · obtain ⟨pc, rfl⟩ | ⟨pc, o, rfl⟩ | ⟨bits, rfl⟩ | ⟨bits, rfl⟩ := engineWord_cases w
    · rw [decodeRequest_predictWord] at h
      obtain ⟨pred, hr⟩ := exec_predictInstr_response h
      exact ⟨_, hr, (absurd · hw), fun _ => engineRsp_err .noError pred, fun _ => predictWord_high3 pc⟩
    · rw [decodeRequest_trainWord] at h
      exact ⟨_, exec_trainInstr_response h, (absurd · hw), fun _ => engineRsp_err .noError false, nofun⟩
    · exact absurd (illegalWord_predictO1Word bits) hw
    · exact absurd (illegalWord_opReservedWord bits) hw

/-! ### What is refused (R7, R16, R37) -/

theorem accepting_refused {s : State} {r : Refusal} {k : Block → Host.Outcome State Fault Refusal}
    (h : accepting s k = .refused r) : ∃ b, Running s b ∧ k b = .refused r := by
  unfold accepting at h
  split at h
  · cases h
  · next b hb =>
    split at h
    · cases h
    · next hf => exact ⟨b, ⟨hb, by simpa using hf⟩, h⟩

theorem complete_ne_refused (s : State) (b : Block) (x : Response) (r : Refusal) : complete s b x ≠ .refused r := nofun

theorem checkingIndex_refused {s : State} {b : Block} {i : BitVec 32} {k : Host.Outcome State Fault Refusal}
    {r : Refusal} (h : checkingIndex s b i k = .refused r) : k = .refused r := by
  unfold checkingIndex at h
  split at h
  · exact h
  · exact absurd h (complete_ne_refused _ _ _ _)

theorem onEngine_refused {v : Variant} {s : State} {r : Refusal} {k : Block → Host.Outcome State Fault Refusal}
    (h : onEngine v s k = .refused r) :
    ∃ b, Running s b ∧ ((b.cfg.variant ≠ v ∧ r = .engineNotBuilt v) ∨ k b = .refused r) := by
  obtain ⟨b, hb, hk⟩ := accepting_refused h
  split at hk
  · exact ⟨b, hb, .inr hk⟩
  · next hv =>
    cases hk
    exact ⟨b, hb, .inl ⟨hv, rfl⟩⟩

theorem onPort_refused {u : TableName} {s : State} {r : Refusal} {k : Block → Host.Outcome State Fault Refusal}
    (h : onPort u s k = .refused r) :
    ∃ b, Running s b ∧ ((b.cfg.variant.hasTable u = false ∧ r = .tableNotBuilt u) ∨ k b = .refused r) := by
  obtain ⟨b, hb, hk⟩ := accepting_refused h
  split at hk
  · exact ⟨b, hb, .inr hk⟩
  · next hu =>
    cases hk
    exact ⟨b, hb, .inl ⟨by simpa using hu, rfl⟩⟩

/-- The refusal that names what request `i` needs of the block: an engine or a table. -/
def NamesWhatIsMissing : Instr → Refusal → Prop
  | .gsharePredict _, r => r = .engineNotBuilt .gshare
  | .gshareTrain _ _, r => r = .engineNotBuilt .gshare
  | .bimodalPredict _, r => r = .engineNotBuilt .bimodal
  | .bimodalTrain _ _, r => r = .engineNotBuilt .bimodal
  | .tournamentPredict _, r => r = .engineNotBuilt .tournament
  | .tournamentTrain _ _, r => r = .engineNotBuilt .tournament
  | .illegalPredictO1 _, _ => False
  | .illegalOpReserved _, _ => False
  | .ctGet t _, r => r = .tableNotBuilt t
  | .ctInc t _, r => r = .tableNotBuilt t
  | .ctDec t _, r => r = .tableNotBuilt t
  | .illegalCtopReserved t _, r => r = .tableNotBuilt t

/-- A request is refused only by a running block on which it does not exist, and the refusal names what is missing. -/
theorem exec_refused {i : Instr} {s : State} {r : Refusal} (h : exec i s = .refused r) :
    ∃ b, Running s b ∧ i.wellFormed b.cfg.variant = false ∧ NamesWhatIsMissing i r := by
  cases i
  case gsharePredict | gshareTrain | bimodalPredict | bimodalTrain | tournamentPredict | tournamentTrain =>
    obtain ⟨b, hb, ⟨hv, rfl⟩ | hk⟩ := onEngine_refused h
    · exact ⟨b, hb, decide_eq_false hv, rfl⟩
    · exact absurd hk (complete_ne_refused _ _ _ _)
  case illegalPredictO1 | illegalOpReserved =>
    obtain ⟨b, -, hk⟩ := accepting_refused h
    exact absurd hk (complete_ne_refused _ _ _ _)
  case illegalCtopReserved =>
    obtain ⟨b, hb, hu | hk⟩ := onPort_refused h
    · exact ⟨b, hb, hu⟩
    · exact absurd hk (complete_ne_refused _ _ _ _)
  case ctGet | ctInc | ctDec =>
    obtain ⟨b, hb, hu | hk⟩ := onPort_refused h
    · exact ⟨b, hb, hu⟩
    · exact absurd (checkingIndex_refused hk) (complete_ne_refused _ _ _ _)

theorem namesWhatIsMissing_decodePort {t : TableName} {w : PortWord} {r : Refusal}
    (h : NamesWhatIsMissing (decodePort t w) r) : r = .tableNotBuilt t := by
  unfold decodePort at h
  split_ifs at h <;> exact h

/-- Construction refuses only a power of two above 2^32 (R7, R75). -/
theorem construct_refused {code : BitVec 2} {n : Nat} {s : State} {r : Refusal}
    (h : construct code n s = .refused r) : 2 ^ 32 < n ∧ r = .memLimitAbove2Pow32 := by
  unfold construct at h
  split at h
  · cases h
  · split_ifs at h with hn hk
    · cases h
    · cases h
      have hne : n ≠ 0 := by
        rintro rfl
        exact hn rfl
      have hle : 2 ^ 33 ≤ n := (Nat.le_log2 hne).1 (by omega)
      exact ⟨by omega, rfl⟩

theorem idle_ne_refused (s : State) (r : Refusal) : idle s ≠ .refused r := by
  intro h
  obtain ⟨b, -, hk⟩ := accepting_refused h
  cases hk

/-- Settles O10: an engine word is always a request of the running block, so only a port word or a construction is left. -/
theorem stepRefusesOnlyWhatTheBlockLacks : Obligations.StepRefusesOnlyWhatTheBlockLacks := by
  intro s r h
  obtain ⟨code, n, rest, hc, hstep⟩ | ⟨b, x, rest, hb, hs, hstep⟩ | ⟨-, -, hstep⟩ := step_cases s
  · exact .inr ⟨code, n, rest, hc, construct_refused (hstep.symm.trans h)⟩
  · obtain ⟨c, hc, hwf, hr⟩ := exec_refused (hstep.symm.trans h)
    obtain rfl : b = c := Option.some.inj (hb.1.symm.trans hc.1)
    rw [wellFormed_decode] at hwf
    cases x with
    | request w => cases hwf
    | port t w => exact .inl ⟨b, t, w, rest, hb, hs, hwf, namesWhatIsMissing_decodePort hr⟩
  · exact absurd (hstep.symm.trans h) (idle_ne_refused s r)

/-! ### The written lines (R42) -/

theorem trainWord_eq_ite (pc : Pc) (o : Bool) :
    trainWord pc o = 0b01#2 ++ (if o then 0b1#1 else 0b0#1) ++ pc := by
  cases o <;> rfl

/-- Settles O5: by the word of each line; the examples and the six texts are computed. -/
theorem assemblerSendsTheWordsOfTheSyntax : Obligations.AssemblerSendsTheWordsOfTheSyntax := by
  refine ⟨fun _ _ => rfl, fun t pc o => ?train, fun _ _ => rfl, fun _ _ => rfl, fun _ _ => rfl, fun _ _ => rfl,
    fun _ _ => rfl, fun _ _ => rfl, fun t pc o => ?step, fun _ _ => rfl, fun _ => rfl, fun _ => rfl, fun _ => rfl,
    ?texts⟩
  case train => rw [assemble, trainWord_eq_ite]
  case step =>
    rw [assemble, trainWord_eq_ite]
    rfl
  case texts => decide

end Sys2Proof.Machine
end

section
/-! The counter-table port and its saturation law (spec/40_counter_table.md R46 to R50): a port request with its index in
range runs its operation and one with its index out of range raises INDEX_RANGE, no write moves a counter by more than
one, and an engine trains a counter as the port would. -/

namespace Sys2Proof.Machine

/-! ### The index check (R46, R77) -/

/-- Below N, a port request does what its operation does. -/
theorem onPort_checkingIndex_of_lt {s : State} {b : Block} {t : TableName} {index : BitVec 32} (hb : Running s b)
    (ht : HasTable b t) (hx : index.toNat < entries b) (k : Block → Host.Outcome State Fault Refusal) :
    onPort t s (fun b => checkingIndex s b index (k b)) = k b := by
  rw [onPort_of_running hb ht, checkingIndex_in_range hx]

/-- At or above N, a port request raises INDEX_RANGE, whatever its operation. -/
theorem onPort_checkingIndex_of_le {s : State} {b : Block} {t : TableName} {index : BitVec 32} (hb : Running s b)
    (ht : HasTable b t) (hx : entries b ≤ index.toNat) (k : Block → Host.Outcome State Fault Refusal) :
    onPort t s (fun b => checkingIndex s b index (k b)) = .next (raised s b .indexRange (.port 0b1000#4)) := by
  rw [onPort_of_running hb ht, checkingIndex_out_of_range hx]
  rfl

/-- A request that writes nothing changes only the answer. -/
theorem complete_of_block_eq {s : State} {b : Block} (h : s.block = some b) (r : Response) :
    complete s b r = .next { s with response := some r } := by
  rw [complete, ← h]

/-! ### The four port requests (R47 to R49, R79) -/

theorem readCtr_setTable_updated_same (b : Block) (t : TableName) (i : Nat) (f : Counter → Counter) :
    readCtr (setTable b t (updatedTable b t i f)) t i = f (readCtr b t i) := by
  simp [readCtr_setTable_updated]

theorem readCtr_setTable_updated_ne (b : Block) (t : TableName) {i j : Nat} (h : j ≠ i) (f : Counter → Counter) :
    readCtr (setTable b t (updatedTable b t i f)) t j = readCtr b t j := by
  simp [readCtr_setTable_updated, h]

/-- Settles O18: in range the operation completes with the block as it was. -/
theorem counterGetReturnsTheEntry : Obligations.CounterGetReturnsTheEntry := by
  intro s b t index hb ht
  refine ⟨decodePort_portWord t 0b00#2 index, fun hx => ?_, fun hx => onPort_checkingIndex_of_le hb ht hx _⟩
  calc exec (.ctGet t index) s
      = complete s b (.port (portRsp .noError (readCtr b t index.toNat))) :=
        onPort_checkingIndex_of_lt hb ht hx _
    _ = .next { s with response := some (.port (0b00#2 ++ readCtr b t index.toNat)) } :=
        complete_of_block_eq hb.1 _

/-- Settles O19: by what a read sees after the write, and `satInc` as a number (R12). -/
theorem counterIncMovesOneEntryUp : Obligations.CounterIncMovesOneEntryUp := by
  intro s b t index hb ht
  obtain ⟨hinc, -⟩ := primitivesSaturateAndShift
  refine ⟨decodePort_portWord t 0b01#2 index, fun hx => ⟨updatedTable b t index.toNat satInc,
    onPort_checkingIndex_of_lt hb ht hx _, fun j hj => readCtr_setTable_updated_ne b t hj satInc, ?_⟩,
    fun hx => onPort_checkingIndex_of_le hb ht hx _⟩
  rw [readCtr_setTable_updated_same, hinc]

/-- Settles O20: by what a read sees after the write, and `satDec` as a number (R12). -/
theorem counterDecMovesOneEntryDown : Obligations.CounterDecMovesOneEntryDown := by
  intro s b t index hb ht
  obtain ⟨-, hdec, -⟩ := primitivesSaturateAndShift
  refine ⟨decodePort_portWord t 0b10#2 index, fun hx => ⟨updatedTable b t index.toNat satDec,
    onPort_checkingIndex_of_lt hb ht hx _, fun j hj => readCtr_setTable_updated_ne b t hj satDec, ?_⟩,
    fun hx => onPort_checkingIndex_of_le hb ht hx _⟩
  rw [readCtr_setTable_updated_same, hdec]

theorem exec_illegalCtopReserved_of_running {s : State} {b : Block} {t : TableName} (hb : Running s b)
    (ht : HasTable b t) (bits : BitVec 32) :
    exec (.illegalCtopReserved t bits) s = .next (raised s b .illegalRequest (.port 0b0100#4)) :=
  onPort_of_running hb ht _

/-- Settles O21: the three operations meet the index check first, and the reserved CTOP never does. -/
theorem outOfRangeIndexRaisesIndexRange : Obligations.OutOfRangeIndexRaisesIndexRange := by
  intro s b t index hb ht hx
  have hops : ∀ i ∈ [Instr.ctGet t index, Instr.ctInc t index, Instr.ctDec t index],
      exec i s = .next (raised s b .indexRange (.port 0b1000#4)) := by
    simp only [List.forall_mem_cons]
    exact ⟨onPort_checkingIndex_of_le hb ht hx _, onPort_checkingIndex_of_le hb ht hx _,
      onPort_checkingIndex_of_le hb ht hx _, nofun⟩
  refine ⟨hops, fun ctop => ?_⟩
  have hdecode : decode b.cfg.variant (.port t (ctop ++ index)) = _ := decodePort_portWord t ctop index
  rw [hdecode]
  obtain rfl | rfl | rfl | rfl := portCode_cases ctop
  · exact hops (.ctGet t index) (by simp)
  · exact hops (.ctInc t index) (by simp)
  · exact hops (.ctDec t index) (by simp)
  · exact exec_illegalCtopReserved_of_running hb ht index

/-! ### No counter moves by more than one (R50, R73) -/

/-- The counters `c` and `d` differ by at most one, as numbers and so without a wrap. -/
def WithinOne (c d : Counter) : Prop := d.toNat ≤ c.toNat + 1 ∧ c.toNat ≤ d.toNat + 1

theorem withinOne_refl (c : Counter) : WithinOne c c := ⟨Nat.le_succ _, Nat.le_succ _⟩

theorem withinOne_satInc (c : Counter) : WithinOne c (satInc c) := by
  have := c.isLt
  rw [WithinOne, satInc_toNat]
  omega

theorem withinOne_satDec (c : Counter) : WithinOne c (satDec c) := by
  rw [WithinOne, satDec_toNat]
  omega

theorem withinOne_ctrUpdate (c : Counter) (o : Bool) : WithinOne c (ctrUpdate c o) := by
  cases o
  · exact withinOne_satDec c
  · exact withinOne_satInc c

theorem withinOne_chooserUpdate (c : Counter) (lp gp o : Bool) : WithinOne c (chooserUpdate c lp gp o) := by
  unfold chooserUpdate
  split_ifs
  · exact withinOne_satInc c
  · exact withinOne_satDec c
  · exact withinOne_refl c

theorem withinOne_updatedTable {f : Counter → Counter} (hf : ∀ c, WithinOne c (f c)) (b : Block) (u : TableName)
    (i j : Nat) : WithinOne (readCtr b u j) (arrRead (tableFill u) (updatedTable b u i f) j) := by
  rw [arrRead_updatedTable]
  split
  · next hj =>
    rw [hj]
    exact hf _
  · exact withinOne_refl _

theorem withinOne_setTable {f : Counter → Counter} (hf : ∀ c, WithinOne c (f c)) (b : Block) (t u : TableName)
    (i j : Nat) : WithinOne (readCtr b u j) (readCtr (setTable b t (updatedTable b t i f)) u j) := by
  rw [readCtr_setTable_updated]
  split
  · next h =>
    obtain ⟨rfl, rfl⟩ := h
    exact hf _
  · exact withinOne_refl _

/-- What a request writes moves every entry of every table by at most one. -/
theorem withinOne_writtenBlock (b : Block) (i : Instr) (u : TableName) (j : Nat) :
    WithinOne (readCtr b u j) (readCtr (writtenBlock b i) u j) := by
  cases i
  case gshareTrain pc o | bimodalTrain pc o =>
    cases u
    case pt => exact withinOne_updatedTable (withinOne_ctrUpdate · o) b .pt _ j
    all_goals exact withinOne_refl _
  case tournamentTrain pc o =>
    cases u
    case pt => exact withinOne_refl _
    case lpt => exact withinOne_updatedTable (withinOne_ctrUpdate · o) b .lpt _ j
    case gpt => exact withinOne_updatedTable (withinOne_ctrUpdate · o) b .gpt _ j
    case cht => exact withinOne_updatedTable (withinOne_chooserUpdate · _ _ o) b .cht _ j
  case ctInc t x => exact withinOne_setTable withinOne_satInc b t u _ j
  case ctDec t x => exact withinOne_setTable withinOne_satDec b t u _ j
  all_goals exact withinOne_refl _

/-- Settles O40: a request writes within one of what stood there, and an error writes no table. -/
theorem noCounterMovesByMoreThanOne : Obligations.NoCounterMovesByMoreThanOne := by
  intro i s t h
  obtain ⟨b, hb, -, ⟨-, r, rfl⟩ | ⟨ch, e, -, rfl⟩⟩ := exec_next_cases h
  · exact ⟨b, _, hb.1, rfl, withinOne_writtenBlock b i⟩
  · refine ⟨b, _, hb.1, rfl, fun u j => ?_⟩
    rw [readCtr_status]
    exact withinOne_refl _

/-! ### Training is the port operation (R50) -/

/-- CT.INC or CT.DEC, as the outcome says, leaves the trained table. -/
theorem exec_portTrain {s : State} {b : Block} {u : TableName} {x : BitVec 32} (hb : Running s b)
    (hu : HasTable b u) (hx : x.toNat < entries b) (o : Bool) :
    exec (if o then .ctInc u x else .ctDec u x) s =
      complete s (setTable b u (trainedTable b u x.toNat o)) (.port (portRsp .noError 0)) := by
  cases o
  · exact onPort_checkingIndex_of_lt hb hu hx _
  · exact onPort_checkingIndex_of_lt hb hu hx _

/-- A request that completes with the table trained at `x` leaves the table that the port request at `x` leaves. -/
theorem exec_portTrain_same_table {s : State} {b c : Block} {u : TableName} {x : BitVec 32} {o : Bool} {i : Instr}
    {r : Response} (hb : Running s b) (hu : HasTable b u) (hx : x.toNat < entries b)
    (hi : exec i s = complete s c r) (hc : tableOf c u = trainedTable b u x.toNat o) :
    ∃ t t' c c', exec i s = .next t ∧ exec (if o then .ctInc u x else .ctDec u x) s = .next t' ∧
      t.block = some c ∧ t'.block = some c' ∧ tableOf c u = tableOf c' u :=
  ⟨_, _, _, _, hi, exec_portTrain hb hu hx o, rfl, rfl, hc.trans (tableOf_setTable_same b u _).symm⟩

/-- Settles O41: each engine trains its table at an index below N, where the port request completes too. -/
theorem trainingIsThePortOperation : Obligations.TrainingIsThePortOperation := by
  rintro s b pc o i u x hb hm (⟨rfl, hv, rfl, hx⟩ | ⟨rfl, hv, rfl, hx⟩ | ⟨rfl, hv, rfl, hx⟩ | ⟨rfl, hv, rfl, hx⟩)
  all_goals
    refine exec_portTrain_same_table hb (by simp [HasTable, hv, Variant.hasTable]) ?_ (onEngine_of_running hb hv _)
      (by rw [hx]; rfl)
    rw [hx]
  · exact globalIndex_lt hm pc
  · exact pcIndex_lt hm pc
  · exact localIndex_lt hm pc
  · exact globalIndex_lt hm pc

end Sys2Proof.Machine
end

section
/-! The indices of the engines, and the Gshare engine (spec/41_gshare.md R53 to R56): under MASK = N - 1 an index is
made of the low k bits of pc and history, so it is below N; PREDICT reads the counter there and TRAIN moves it. -/

namespace Sys2Proof.Machine

/-! ### The index formulas (R53, R56, R60, R66) -/

theorem pcIndex_eq_mod {b : Block} (h : MaskValid b) (pc : Pc) : pcIndex b pc = pc.toNat % entries b :=
  masked_eq_mod h _

theorem globalIndex_eq_mod {b : Block} (h : MaskValid b) (pc : Pc) :
    globalIndex b pc = (pc.toNat % entries b) ^^^ (b.ghr % entries b) := by
  rw [globalIndex, masked_eq_mod h, masked_eq_mod h]

theorem localIndex_eq_mod {b : Block} (h : MaskValid b) (pc : Pc) :
    localIndex b pc = (readHist b (pc.toNat % entries b) % entries b) ^^^ (pc.toNat % entries b) := by
  rw [localIndex, masked_eq_mod h, pcIndex_eq_mod h]
  exact Nat.xor_mod_two_pow

/-- Settles O32: masking leaves less than N = 2^k, and so does the XOR of two such. -/
theorem engineIndicesLieInRange : Obligations.EngineIndicesLieInRange :=
  fun _ pc h => ⟨globalIndex_lt h pc, pcIndex_lt h pc, localIndex_lt h pc⟩

/-- Settles O33: masking with N - 1 is the remainder by N = 2^k, which distributes over XOR. -/
theorem indexFormulasKeepTheLowBits : Obligations.IndexFormulasKeepTheLowBits :=
  fun _ pc h => ⟨globalIndex_eq_mod h pc, pcIndex_eq_mod h pc, localIndex_eq_mod h pc⟩

/-! ### PREDICT and TRAIN of any engine -/

/-- The prediction of each engine for `pc` (R54, R61, R68). -/
def predicted (b : Block) (pc : Pc) : Variant → Bool
  | .gshare => taken (readCtr b .pt (globalIndex b pc))
  | .bimodal => taken (readCtr b .pt (pcIndex b pc))
  | .tournament => bif taken (chooserValue b pc) then globalPrediction b pc else localPrediction b pc

theorem exec_predictInstr (v : Variant) (pc : Pc) (s : State) :
    exec (predictInstr v pc) s =
      onEngine v s fun b => complete s b (.engine (engineRsp .noError (predicted b pc v))) := by
  cases v <;> rfl

theorem exec_trainInstr (v : Variant) (pc : Pc) (o : Bool) (s : State) :
    exec (trainInstr v pc o) s =
      onEngine v s fun b =>
        complete s (writtenBlock b (trainInstr v pc o)) (.engine (engineRsp .noError false)) := by
  cases v <;> rfl

theorem exec_predictInstr_of_running {s : State} {b : Block} {v : Variant} (hb : Running s b)
    (hv : b.cfg.variant = v) (pc : Pc) :
    exec (predictInstr v pc) s =
      .next { s with response := some (.engine (engineRsp .noError (predicted b pc v))) } := by
  rw [exec_predictInstr, onEngine_of_running hb hv, complete_of_block_eq hb.1]

theorem exec_trainInstr_of_running {s : State} {b : Block} {v : Variant} (hb : Running s b)
    (hv : b.cfg.variant = v) (pc : Pc) (o : Bool) :
    exec (trainInstr v pc o) s = .next { s with
      block := some (writtenBlock b (trainInstr v pc o)), response := some (.engine 0b000#3) } := by
  rw [exec_trainInstr, onEngine_of_running hb hv]
  rfl

/-! ### Gshare (R54, R55) -/

theorem ctrUpdate_toNat (c : Counter) (o : Bool) : (ctrUpdate c o).toNat = trainedValue c o := by
  cases o
  · exact satDec_toNat c
  · exact satInc_toNat c

theorem arrRead_trainedTable_toNat (b : Block) (u : TableName) (i j : Nat) (o : Bool) :
    (arrRead (tableFill u) (trainedTable b u i o) j).toNat =
      if j = i then trainedValue (readCtr b u j) o else (readCtr b u j).toNat := by
  rw [trainedTable, arrRead_updatedTable]
  split
  · next hj => rw [ctrUpdate_toNat, hj]
  · rfl

/-- Settles O23: a PREDICT completes with the block as it was, and the word with O = 1 is an illegal one. -/
theorem gsharePredictReadsTheIndexedCounter : Obligations.GsharePredictReadsTheIndexedCounter := by
  intro s b pc hb hm hv
  refine ⟨?decode, ?answer, exec_decodeRequest_of_illegalWord hb _ (illegalWord_predictO1Word pc)⟩
  case decode =>
    rw [hv]
    exact decodeRequest_predictWord .gshare pc
  case answer =>
    rw [← globalIndex_eq_mod hm]
    exact exec_predictInstr_of_running hb hv pc

/-- Settles O24: by what a read of the trained table sees, the counter trained being the one at `globalIndex`. -/
theorem gshareTrainWritesOneCounterAndHistory : Obligations.GshareTrainWritesOneCounterAndHistory := by
  intro s b pc o hb hm hv
  refine ⟨?decode, trainedTable b .pt (globalIndex b pc) o, ?next, fun j => ?reads⟩
  case decode =>
    rw [hv]
    exact decodeRequest_trainWord .gshare pc o
  case next =>
    rw [← shiftIn_eq_ite]
    exact exec_trainInstr_of_running hb hv pc o
  case reads =>
    rw [← globalIndex_eq_mod hm]
    exact arrRead_trainedTable_toNat b .pt _ j o

end Sys2Proof.Machine
end

section
/-! PREDICT and then TRAIN of one pc (spec/41_gshare.md R58, spec/43_tournament.md R68, R69): the two form the same
indices, and a TRAIN changes no entry at another index. -/

namespace Sys2Proof.Machine

/-! ### The entries a TRAIN can change -/

theorem eq_index_of_written_entry_ne {b b' : Block} {u : TableName} {i j : Nat} {x : Counter}
    (h : readCtr b' u j ≠ readCtr b u j) (hu : tableOf b' u = arrWrite (tableFill u) (tableOf b u) i x) : j = i := by
  by_contra hj
  rw [readCtr, hu, arrRead_write_ne _ _ _ hj] at h
  exact h rfl

section
variable {b : Block} {v : Variant} {pc : Pc} {o : Bool} {j : Nat}

/-- A PT entry that a TRAIN changes held what the PREDICT of its pc answers. -/
theorem taken_of_train_changes_pt
    (h : readCtr (writtenBlock b (trainInstr v pc o)) .pt j ≠ readCtr b .pt j) :
    taken (readCtr b .pt j) = predicted b pc v := by
  cases v
  case gshare =>
    obtain rfl : j = globalIndex b pc := eq_index_of_written_entry_ne h rfl
    rfl
  case bimodal =>
    obtain rfl : j = pcIndex b pc := eq_index_of_written_entry_ne h rfl
    rfl
  case tournament => exact absurd rfl h

theorem eq_localIndex_of_train_changes_lpt
    (h : readCtr (writtenBlock b (trainInstr v pc o)) .lpt j ≠ readCtr b .lpt j) : j = localIndex b pc := by
  cases v
  case gshare | bimodal => exact absurd rfl h
  case tournament => exact eq_index_of_written_entry_ne h rfl

theorem eq_globalIndex_of_train_changes_gpt
    (h : readCtr (writtenBlock b (trainInstr v pc o)) .gpt j ≠ readCtr b .gpt j) : j = globalIndex b pc := by
  cases v
  case gshare | bimodal => exact absurd rfl h
  case tournament => exact eq_index_of_written_entry_ne h rfl

theorem eq_pcIndex_of_train_changes_cht
    (h : readCtr (writtenBlock b (trainInstr v pc o)) .cht j ≠ readCtr b .cht j) : j = pcIndex b pc := by
  cases v
  case gshare | bimodal => exact absurd rfl h
  case tournament => exact eq_index_of_written_entry_ne h rfl

theorem eq_pcIndex_of_train_changes_lht
    (h : readHist (writtenBlock b (trainInstr v pc o)) j ≠ readHist b j) : j = pcIndex b pc := by
  cases v
  case gshare | bimodal => exact absurd rfl h
  case tournament =>
    by_contra hj
    refine h ((readHist_writtenBlock_tournamentTrain b pc o j).trans ?_)
    rw [if_neg hj]

end

/-! ### The answer of a PREDICT -/

theorem exec_predictInstr_pred {v : Variant} {pc : Pc} {s t : State} (h : exec (predictInstr v pc) s = .next t) :
    ∃ b, Running s b ∧ b.cfg.variant = v ∧ t.pred = some (predicted b pc v) := by
  rw [exec_predictInstr] at h
  obtain ⟨b, hb, hv, hk⟩ := onEngine_next h
  obtain rfl := complete_next.1 hk
  exact ⟨b, hb, hv, congrArg some (engineRsp_pred .noError _)⟩

/-- R68 with the chooser's two cases written as `if`. -/
theorem predicted_tournament (b : Block) (pc : Pc) :
    predicted b pc .tournament = if 2 ≤ (readCtr b .cht (pcIndex b pc)).toNat
      then decide (2 ≤ (readCtr b .gpt (globalIndex b pc)).toNat)
      else decide (2 ≤ (readCtr b .lpt (localIndex b pc)).toNat) :=
  Bool.cond_decide _ _ _

/-- Settles O43: the state after the PREDICT differs in the answer alone, and the TRAIN changes only what was read. -/
theorem trainAgreesWithThePredictBeforeIt : Obligations.TrainAgreesWithThePredictBeforeIt := by
  intro v pc o s t h
  obtain ⟨b, hb, hv, hpred⟩ := exec_predictInstr_pred h
  have htrain : exec (trainInstr v pc o) t = exec (trainInstr v pc o) s := by
    obtain ⟨r, rfl⟩ := exec_predictInstr_next h
    exact exec_with_response _ s _
  refine ⟨htrain, b, _, _, hb.1, htrain.trans (exec_trainInstr_of_running hb hv pc o), rfl, fun j hj => ?pt, ?answer,
    fun _ => eq_localIndex_of_train_changes_lpt, fun _ => eq_globalIndex_of_train_changes_gpt,
    fun _ => eq_pcIndex_of_train_changes_cht, fun _ => eq_pcIndex_of_train_changes_lht⟩
  case pt =>
    rw [hpred, ← taken_of_train_changes_pt hj]
    rfl
  case answer =>
    rintro rfl
    rw [hpred, predicted_tournament]

end Sys2Proof.Machine
end

section
/-! History bits at positions k and up (spec/10_state.md R24, spec/41_gshare.md R57, spec/43_tournament.md R72). Two
blocks that agree but for those bits form the same indices, so they give the same predictions and write the same
counters, and after the shift they agree again; a step therefore takes two such states to outcomes of one kind. -/

namespace Sys2Proof.Machine

/-- A shift moves a difference at positions k and up further up. -/
theorem shiftIn_modEq {n : Nat} {x y : History} (h : x ≡ y [MOD n]) (o : Bool) :
    shiftIn x o ≡ shiftIn y o [MOD n] :=
  (h.mul_left 2).add_right o.toNat

/-- The relation of the simulation: a valid MASK, and a difference at most in history bits at positions k and up. -/
def LowAgree (b c : Block) : Prop := MaskValid b ∧ SameLowHistory b c

namespace LowAgree

/-! ### What two such blocks have in common -/

theorem refl {b : Block} (h : MaskValid b) : LowAgree b b :=
  ⟨h, rfl, rfl, rfl, rfl, rfl, rfl, rfl, fun _ => rfl⟩

variable {b c : Block}

theorem maskValid (h : LowAgree b c) : MaskValid b := h.1

theorem cfg_eq (h : LowAgree b c) : c.cfg = b.cfg := by
  obtain ⟨-, hcfg, -⟩ := h
  exact hcfg.symm

theorem status_eq (h : LowAgree b c) : c.status = b.status := by
  obtain ⟨-, -, hstatus, -⟩ := h
  exact hstatus.symm

theorem tableOf_eq (h : LowAgree b c) (u : TableName) : tableOf c u = tableOf b u := by
  obtain ⟨-, -, -, hpt, hlpt, hgpt, hcht, -⟩ := h
  cases u
  · exact hpt.symm
  · exact hlpt.symm
  · exact hgpt.symm
  · exact hcht.symm

theorem ghr_mod (h : LowAgree b c) : c.ghr % entries b = b.ghr % entries b := by
  obtain ⟨-, -, -, -, -, -, -, hghr, -⟩ := h
  exact hghr.symm

theorem readHist_mod (h : LowAgree b c) (j : Nat) : readHist c j % entries b = readHist b j % entries b := by
  obtain ⟨-, -, -, -, -, -, -, -, hlht⟩ := h
  exact (hlht j).symm

theorem entries_eq (h : LowAgree b c) : entries c = entries b := by
  rw [entries, entries, h.cfg_eq]

theorem maskValid_right (h : LowAgree b c) : MaskValid c := by
  rw [MaskValid, h.cfg_eq, h.entries_eq]
  exact h.maskValid

theorem readCtr_eq (h : LowAgree b c) (u : TableName) (i : Nat) : readCtr c u i = readCtr b u i := by
  rw [readCtr, readCtr, h.tableOf_eq]

theorem updatedTable_eq (h : LowAgree b c) (u : TableName) (i : Nat) (f : Counter → Counter) :
    updatedTable c u i f = updatedTable b u i f := by
  rw [updatedTable, updatedTable, h.tableOf_eq, h.readCtr_eq]

theorem trainedTable_eq (h : LowAgree b c) (u : TableName) (i : Nat) (o : Bool) :
    trainedTable c u i o = trainedTable b u i o := h.updatedTable_eq u i _

/-! ### The same indices and predictions (R57, R72) -/

theorem pcIndex_eq (h : LowAgree b c) (pc : Pc) : pcIndex c pc = pcIndex b pc := by
  rw [pcIndex_eq_mod h.maskValid_right, pcIndex_eq_mod h.maskValid, h.entries_eq]

theorem globalIndex_eq (h : LowAgree b c) (pc : Pc) : globalIndex c pc = globalIndex b pc := by
  rw [globalIndex_eq_mod h.maskValid_right, globalIndex_eq_mod h.maskValid, h.entries_eq, h.ghr_mod]

theorem localIndex_eq (h : LowAgree b c) (pc : Pc) : localIndex c pc = localIndex b pc := by
  rw [localIndex_eq_mod h.maskValid_right, localIndex_eq_mod h.maskValid, h.entries_eq, h.readHist_mod]

theorem globalPrediction_eq (h : LowAgree b c) (pc : Pc) : globalPrediction c pc = globalPrediction b pc := by
  rw [globalPrediction, globalPrediction, h.globalIndex_eq, h.readCtr_eq]

theorem localPrediction_eq (h : LowAgree b c) (pc : Pc) : localPrediction c pc = localPrediction b pc := by
  rw [localPrediction, localPrediction, h.localIndex_eq, h.readCtr_eq]

theorem predicted_eq (h : LowAgree b c) (pc : Pc) (v : Variant) : predicted c pc v = predicted b pc v := by
  cases v
  case gshare => rw [predicted, predicted, h.globalIndex_eq, h.readCtr_eq]
  case bimodal => rw [predicted, predicted, h.pcIndex_eq, h.readCtr_eq]
  case tournament =>
    rw [predicted, predicted, chooserValue, chooserValue, h.pcIndex_eq, h.readCtr_eq, h.globalPrediction_eq,
      h.localPrediction_eq]

/-! ### The updates of a block keep the agreement -/

theorem with_status (h : LowAgree b c) (x : Status) :
    LowAgree { b with status := x } { c with status := x } := by
  obtain ⟨hm, hcfg, -, harrays⟩ := h
  exact ⟨hm, hcfg, rfl, harrays⟩

theorem with_table (h : LowAgree b c) (u : TableName) (l : Table) : LowAgree (setTable b u l) (setTable c u l) := by
  obtain ⟨hm, hcfg, hstatus, hpt, hlpt, hgpt, hcht, hhist⟩ := h
  cases u
  · exact ⟨hm, hcfg, hstatus, rfl, hlpt, hgpt, hcht, hhist⟩
  · exact ⟨hm, hcfg, hstatus, hpt, rfl, hgpt, hcht, hhist⟩
  · exact ⟨hm, hcfg, hstatus, hpt, hlpt, rfl, hcht, hhist⟩
  · exact ⟨hm, hcfg, hstatus, hpt, hlpt, hgpt, rfl, hhist⟩

theorem with_ghr (h : LowAgree b c) {x y : History} (hxy : x ≡ y [MOD entries b]) :
    LowAgree { b with ghr := x } { c with ghr := y } := by
  obtain ⟨hm, hcfg, hstatus, hpt, hlpt, hgpt, hcht, -, hlht⟩ := h
  exact ⟨hm, hcfg, hstatus, hpt, hlpt, hgpt, hcht, hxy, hlht⟩

theorem with_lht (h : LowAgree b c) {l m : HistoryTable}
    (hlm : ∀ j, arrRead historyFill l j ≡ arrRead historyFill m j [MOD entries b]) :
    LowAgree { b with lht := l } { c with lht := m } := by
  obtain ⟨hm, hcfg, hstatus, hpt, hlpt, hgpt, hcht, hghr, -⟩ := h
  exact ⟨hm, hcfg, hstatus, hpt, hlpt, hgpt, hcht, hghr, hlm⟩

theorem arrRead_shiftedHistories_modEq (h : LowAgree b c) (i j : Nat) (o : Bool) :
    arrRead historyFill (shiftedHistories b i o) j ≡ arrRead historyFill (shiftedHistories c i o) j
      [MOD entries b] := by
  rw [arrRead_shiftedHistories, arrRead_shiftedHistories]
  split
  · exact shiftIn_modEq (h.readHist_mod i).symm o
  · exact (h.readHist_mod j).symm

/-- What a request writes is the same in both blocks, but for the shifted histories, which agree again. -/
theorem written (h : LowAgree b c) (i : Instr) : LowAgree (writtenBlock b i) (writtenBlock c i) := by
  have hshift (o : Bool) : shiftIn b.ghr o ≡ shiftIn c.ghr o [MOD entries b] := shiftIn_modEq h.ghr_mod.symm o
  cases i
  case gshareTrain pc o =>
    rw [writtenBlock, writtenBlock, h.globalIndex_eq, h.trainedTable_eq]
    have hpt := h.with_table .pt (trainedTable b .pt (globalIndex b pc) o)
    exact hpt.with_ghr (hshift o)
  case bimodalTrain pc o =>
    rw [writtenBlock, writtenBlock, h.pcIndex_eq, h.trainedTable_eq]
    exact h.with_table .pt _
  case tournamentTrain pc o =>
    rw [writtenBlock, writtenBlock, h.globalIndex_eq, h.localIndex_eq, h.pcIndex_eq, h.globalPrediction_eq,
      h.localPrediction_eq, h.trainedTable_eq, h.trainedTable_eq, h.updatedTable_eq]
    have hcht := h.with_table .cht (updatedTable b .cht (pcIndex b pc)
      fun x => chooserUpdate x (localPrediction b pc) (globalPrediction b pc) o)
    have hlpt := hcht.with_table .lpt (trainedTable b .lpt (localIndex b pc) o)
    have hgpt := hlpt.with_table .gpt (trainedTable b .gpt (globalIndex b pc) o)
    have hlht := hgpt.with_lht fun j => h.arrRead_shiftedHistories_modEq (pcIndex b pc) j o
    exact hlht.with_ghr (hshift o)
  case ctInc u x | ctDec u x =>
    rw [writtenBlock, writtenBlock, h.updatedTable_eq]
    exact h.with_table u _
  all_goals exact h

end LowAgree

/-! ### Outcomes of one kind -/

/-- The same fault, the same refusal, or two next states that differ at most in history bits at positions k and up. -/
inductive SameKind : Host.Outcome State Fault Refusal → Host.Outcome State Fault Refusal → Prop
  | next {s t : State} (h : SameButHighHistory s t) : SameKind (.next s) (.next t)
  | fault (f : Fault) : SameKind (.fault f) (.fault f)
  | refused (r : Refusal) : SameKind (.refused r) (.refused r)

section
variable {s t : State} (h : SameButHighHistory s t)
include h

/-! ### The shared operations -/

theorem sameButHighHistory_with_inputs (l : List Input) :
    SameButHighHistory { s with inputs := l } { t with inputs := l } := by
  obtain ⟨-, hresponse, hblock⟩ := h
  exact ⟨rfl, hresponse, hblock⟩

theorem acceptedRequest_eq_of_sameButHighHistory (w : Wire) : acceptedRequest t w = acceptedRequest s w := by
  obtain ⟨-, -, ⟨hs, ht⟩ | ⟨b, c, hs, ht, hbc⟩⟩ := h
  · simp only [acceptedRequest, hs, ht]
  · have hbc : LowAgree b c := hbc
    simp only [acceptedRequest, hs, ht, hbc.cfg_eq, hbc.status_eq]

theorem accepting_sameKind {k k' : Block → Host.Outcome State Fault Refusal}
    (hk : ∀ b c, LowAgree b c → SameKind (k b) (k' c)) : SameKind (accepting s k) (accepting t k') := by
  obtain ⟨-, -, ⟨hs, ht⟩ | ⟨b, c, hs, ht, hbc⟩⟩ := h
  · simp only [accepting, hs, ht]
    exact .fault _
  · have hbc : LowAgree b c := hbc
    simp only [accepting, hs, ht, hbc.status_eq]
    split
    · exact .fault _
    · exact hk b c hbc

theorem onEngine_sameKind (v : Variant) {k k' : Block → Host.Outcome State Fault Refusal}
    (hk : ∀ b c, LowAgree b c → SameKind (k b) (k' c)) : SameKind (onEngine v s k) (onEngine v t k') := by
  refine accepting_sameKind h fun b c hbc => ?_
  rw [hbc.cfg_eq]
  split
  · exact hk b c hbc
  · exact .refused _

theorem onPort_sameKind (u : TableName) {k k' : Block → Host.Outcome State Fault Refusal}
    (hk : ∀ b c, LowAgree b c → SameKind (k b) (k' c)) : SameKind (onPort u s k) (onPort u t k') := by
  refine accepting_sameKind h fun b c hbc => ?_
  rw [hbc.cfg_eq]
  split
  · exact hk b c hbc
  · exact .refused _

theorem complete_sameKind {b c : Block} (hbc : LowAgree b c) (r : Response) :
    SameKind (complete s b r) (complete t c r) := by
  obtain ⟨hinputs, -, -⟩ := h
  exact .next ⟨hinputs, rfl, .inr ⟨b, c, rfl, rfl, hbc⟩⟩

theorem raiseError_sameKind {b c : Block} (hbc : LowAgree b c) (ch : Channel) (e : Err) :
    SameKind (raiseError s b ch e) (raiseError t c ch e) :=
  complete_sameKind h (hbc.with_status _) _

theorem checkingIndex_sameKind {b c : Block} (hbc : LowAgree b c) (x : BitVec 32)
    {k k' : Host.Outcome State Fault Refusal} (hk : SameKind k k') :
    SameKind (checkingIndex s b x k) (checkingIndex t c x k') := by
  rw [checkingIndex, checkingIndex, hbc.entries_eq]
  split
  · exact hk
  · exact raiseError_sameKind h hbc _ _

theorem idle_sameKind : SameKind (idle s) (idle t) := accepting_sameKind h fun _ _ _ => .next h

/-! ### Requests, construction and the step -/

theorem exec_predictInstr_sameKind (v : Variant) (pc : Pc) :
    SameKind (exec (predictInstr v pc) s) (exec (predictInstr v pc) t) := by
  rw [exec_predictInstr, exec_predictInstr]
  refine onEngine_sameKind h v fun b c hbc => ?_
  rw [hbc.predicted_eq]
  exact complete_sameKind h hbc _

theorem exec_trainInstr_sameKind (v : Variant) (pc : Pc) (o : Bool) :
    SameKind (exec (trainInstr v pc o) s) (exec (trainInstr v pc o) t) := by
  rw [exec_trainInstr, exec_trainInstr]
  exact onEngine_sameKind h v fun b c hbc => complete_sameKind h (hbc.written _) _

theorem exec_sameKind (i : Instr) : SameKind (exec i s) (exec i t) := by
  cases i
  case gsharePredict pc => exact exec_predictInstr_sameKind h .gshare pc
  case bimodalPredict pc => exact exec_predictInstr_sameKind h .bimodal pc
  case tournamentPredict pc => exact exec_predictInstr_sameKind h .tournament pc
  case gshareTrain pc o => exact exec_trainInstr_sameKind h .gshare pc o
  case bimodalTrain pc o => exact exec_trainInstr_sameKind h .bimodal pc o
  case tournamentTrain pc o => exact exec_trainInstr_sameKind h .tournament pc o
  case illegalPredictO1 | illegalOpReserved =>
    exact accepting_sameKind h fun b c hbc => raiseError_sameKind h hbc _ _
  case illegalCtopReserved u _ => exact onPort_sameKind h u fun b c hbc => raiseError_sameKind h hbc _ _
  case ctGet u x =>
    refine onPort_sameKind h u fun b c hbc => checkingIndex_sameKind h hbc x ?_
    rw [hbc.readCtr_eq]
    exact complete_sameKind h hbc _
  case ctInc u x =>
    exact onPort_sameKind h u fun b c hbc =>
      checkingIndex_sameKind h hbc x (complete_sameKind h (hbc.written (.ctInc u x)) _)
  case ctDec u x =>
    exact onPort_sameKind h u fun b c hbc =>
      checkingIndex_sameKind h hbc x (complete_sameKind h (hbc.written (.ctDec u x)) _)

theorem raiseConfigError_sameKind : SameKind (raiseConfigError s) (raiseConfigError t) := by
  obtain ⟨hinputs, -, -⟩ := h
  exact .next ⟨hinputs, rfl, .inl ⟨rfl, rfl⟩⟩

/-- A construction leaves no trace of the state before, but for the inputs that wait (R93). -/
theorem construct_sameKind (code : BitVec 2) (n : Nat) : SameKind (construct code n s) (construct code n t) := by
  unfold construct
  split
  · exact raiseConfigError_sameKind h
  · split_ifs with hn hk
    · exact raiseConfigError_sameKind h
    · exact complete_sameKind h (.refl (fresh_wf _ _).maskValid) _
    · exact .refused _

theorem awaitConstruction_sameKind (waiting : List Input) :
    SameKind (awaitConstruction s waiting) (awaitConstruction t waiting) := by
  induction waiting with
  | nil => exact idle_sameKind h
  | cons x waiting ih =>
    cases x with
    | construct code n => exact construct_sameKind (sameButHighHistory_with_inputs h waiting) code n
    | send w => exact ih

theorem step_sameKind : SameKind (step s) (step t) := by
  have hinputs : t.inputs = s.inputs := h.1.symm
  unfold step
  rw [hinputs]
  split
  · exact idle_sameKind h
  · next code n rest _ => exact construct_sameKind (sameButHighHistory_with_inputs h rest) code n
  · next w rest _ =>
    rw [acceptedRequest_eq_of_sameButHighHistory h]
    split
    · next i _ => exact exec_sameKind (sameButHighHistory_with_inputs h rest) i
    · exact awaitConstruction_sameKind h rest

end

/-- Settles O44: the two steps have outcomes of one kind, whichever of the three it is. -/
theorem historyBitsAboveKNeverMatter : Obligations.HistoryBitsAboveKNeverMatter := by
  intro s t h
  have hkind := step_sameKind h
  refine ⟨fun s' hs => ?next, fun f hs => ?fault, fun r hs => ?refused⟩
  all_goals
    rw [hs] at hkind
    generalize step t = y at hkind ⊢
    cases hkind
  case next hst => exact ⟨_, rfl, hst⟩
  case fault => rfl
  case refused => rfl

end Sys2Proof.Machine
end

section
/-! The Bimodal engine (spec/42_bimodal.md R60 to R64): its one index is pc mod N, so aliases share a counter, and a
TRAIN that finds its counter at the bound writes back what it read; the same holds of the tables of the other engines. -/

namespace Sys2Proof.Machine

/-! ### PREDICT and TRAIN (R61, R62) -/

/-- Settles O25: a PREDICT completes with the block as it was, and the word with O = 1 is an illegal one. -/
theorem bimodalPredictReadsTheIndexedCounter : Obligations.BimodalPredictReadsTheIndexedCounter := by
  intro s b pc hb hm hv
  refine ⟨?decode, ?answer, exec_decodeRequest_of_illegalWord hb _ (illegalWord_predictO1Word pc)⟩
  case decode =>
    rw [hv]
    exact decodeRequest_predictWord .bimodal pc
  case answer =>
    rw [← pcIndex_eq_mod hm]
    exact exec_predictInstr_of_running hb hv pc

/-- Settles O26: by what a read of the trained table sees, the counter trained being the one at `pcIndex`. -/
theorem bimodalTrainWritesOneCounter : Obligations.BimodalTrainWritesOneCounter := by
  intro s b pc o hb hm hv
  refine ⟨?decode, trainedTable b .pt (pcIndex b pc) o, exec_trainInstr_of_running hb hv pc o, fun j => ?reads⟩
  case decode =>
    rw [hv]
    exact decodeRequest_trainWord .bimodal pc o
  case reads =>
    rw [← pcIndex_eq_mod hm]
    exact arrRead_trainedTable_toNat b .pt _ j o

/-! ### Aliases (R63) -/

/-- What an engine request does depends on its meaning at the block alone, also where the block does not accept it. -/
theorem onEngine_congr {s : State} {b : Block} {v : Variant} {k k' : Block → Host.Outcome State Fault Refusal}
    (hs : s.block = some b) (hk : k b = k' b) : onEngine v s k = onEngine v s k' := by
  simp only [onEngine, accepting, hs, hk]

/-- After a Bimodal TRAIN, the prediction for a pc of the same index is that of the trained counter. -/
theorem predicted_writtenBlock_bimodalTrain {b : Block} {pc pc' : Pc} (h : pcIndex b pc = pcIndex b pc') (o : Bool) :
    predicted (writtenBlock b (.bimodalTrain pc o)) pc' .bimodal =
      decide (2 ≤ trainedValue (readCtr b .pt (pcIndex b pc')) o) := by
  have hread : (readCtr (writtenBlock b (.bimodalTrain pc o)) .pt (pcIndex b pc')).toNat =
      trainedValue (readCtr b .pt (pcIndex b pc')) o := by
    refine (arrRead_trainedTable_toNat b .pt (pcIndex b pc) (pcIndex b pc') o).trans ?_
    rw [if_pos h.symm]
  rw [← hread]
  rfl

/-- Settles O27: both pcs have one index, which a TRAIN does not move, since it keeps CFG. -/
theorem bimodalAliasesShareTheirCounter : Obligations.BimodalAliasesShareTheirCounter := by
  intro s b pc pc' hs hm hmod
  have hindex : pcIndex b pc = pcIndex b pc' := by
    rw [pcIndex_eq_mod hm, pcIndex_eq_mod hm, hmod]
  refine ⟨onEngine_congr hs (by rw [hindex]), fun o => onEngine_congr hs (by rw [hindex]), fun hf hv o => ?_⟩
  refine ⟨_, exec_trainInstr_of_running ⟨hs, hf⟩ hv pc o, ?_⟩
  rw [← pcIndex_eq_mod hm, ← predicted_writtenBlock_bimodalTrain hindex]
  exact exec_predictInstr_of_running (b := writtenBlock b (.bimodalTrain pc o)) ⟨rfl, hf⟩ hv pc'

/-! ### Saturation (R64) -/

theorem ctrUpdate_of_saturated {c : Counter} {o : Bool} (h : c.toNat = if o then 3 else 0) : ctrUpdate c o = c := by
  revert c o; decide

/-- A chooser counter at the bound it would move to stays (R70). -/
theorem chooserUpdate_of_saturated {c : Counter} {lp gp o : Bool}
    (h : (lp ≠ o ∧ gp = o ∧ c.toNat = 3) ∨ (lp = o ∧ gp ≠ o ∧ c.toNat = 0)) : chooserUpdate c lp gp o = c := by
  obtain ⟨hlp, hgp, hc⟩ | ⟨hlp, hgp, hc⟩ := h
  · rw [chooserUpdate, if_pos ⟨hlp, hgp⟩]
    exact ctrUpdate_of_saturated (o := true) hc
  · rw [chooserUpdate, if_neg fun hup => hup.1 hlp, if_pos ⟨hlp, hgp⟩]
    exact ctrUpdate_of_saturated (o := false) hc

/-- Writing back what is there leaves a canonical table as it was, as equal data (R27). -/
theorem updatedTable_of_fixed {b : Block} {u : TableName} {i : Nat} {f : Counter → Counter} (h : Table.Wf b u)
    (hi : i < entries b) (hf : f (readCtr b u i) = readCtr b u i) : updatedTable b u i f = tableOf b u := by
  refine eq_of_arrRead_eq (updatedTable_canonical h hi f) h.1 fun j => ?_
  rw [arrRead_updatedTable]
  split
  · next hj => rw [hf, hj, readCtr]
  · rfl

theorem trainedTable_of_saturated {b : Block} {u : TableName} {i : Nat} {o : Bool} (h : Table.Wf b u)
    (hi : i < entries b) (hc : (readCtr b u i).toNat = if o then 3 else 0) : trainedTable b u i o = tableOf b u :=
  updatedTable_of_fixed h hi (ctrUpdate_of_saturated hc)

/-- Settles O28: every index lies below N, so each saturated entry is written back to a canonical table. -/
theorem saturatingTrainKeepsItsTable : Obligations.SaturatingTrainKeepsItsTable := by
  intro s b pc o hb hwf
  have hm := hwf.maskValid
  refine ⟨fun hv hc => ?bimodal, fun hv hc => ?gshare, fun hv slot li gi hslot hli hgi => ?tournament⟩
  case bimodal =>
    rw [← pcIndex_eq_mod hm] at hc
    have hpt : writtenBlock b (.bimodalTrain pc o) = b := by
      rw [writtenBlock, trainedTable_of_saturated (hwf.table .pt) (pcIndex_lt hm pc) hc, tableOf_pt]
    refine (exec_trainInstr_of_running hb hv pc o).trans ?_
    rw [trainInstr, hpt, ← hb.1]
  case gshare =>
    rw [← globalIndex_eq_mod hm] at hc
    have hpt : writtenBlock b (.gshareTrain pc o) = { b with ghr := shiftIn b.ghr o } := by
      rw [writtenBlock, trainedTable_of_saturated (hwf.table .pt) (globalIndex_lt hm pc) hc, tableOf_pt]
    refine (exec_trainInstr_of_running hb hv pc o).trans ?_
    rw [trainInstr, hpt, shiftIn_eq_ite]
  case tournament =>
    obtain rfl : slot = pcIndex b pc := hslot.trans (pcIndex_eq_mod hm pc).symm
    obtain rfl : li = localIndex b pc := hli.trans (masked_eq_mod hm _).symm
    obtain rfl : gi = globalIndex b pc := hgi.trans (globalIndex_eq_mod hm pc).symm
    refine ⟨_, exec_trainInstr_of_running hb hv pc o, shiftIn_eq_ite b.ghr o, ?lht,
      trainedTable_of_saturated (hwf.table .lpt) (localIndex_lt hm pc),
      trainedTable_of_saturated (hwf.table .gpt) (globalIndex_lt hm pc), ?cht⟩
    case lht =>
      refine (readHist_writtenBlock_tournamentTrain b pc o (pcIndex b pc)).trans ?_
      rw [if_pos rfl]
    case cht =>
      rintro lp gp rfl rfl hc
      exact updatedTable_of_fixed (f := fun c => chooserUpdate c _ _ o) (hwf.table .cht) (pcIndex_lt hm pc)
        (chooserUpdate_of_saturated hc)

end Sys2Proof.Machine
end

section
/-! The Tournament engine (spec/43_tournament.md R66 to R70): PREDICT answers what the chooser picks of the local and the
global prediction; TRAIN moves the chooser towards the one that alone was right, and trains both. -/

namespace Sys2Proof.Machine

/-! ### The chooser's update (R70) -/

theorem chooserUpdate_toNat (c : Counter) (lp gp o : Bool) :
    (chooserUpdate c lp gp o).toNat =
      if lp ≠ o ∧ gp = o then min (c.toNat + 1) 3 else if lp = o ∧ gp ≠ o then c.toNat - 1 else c.toNat := by
  unfold chooserUpdate
  split_ifs
  · exact satInc_toNat c
  · exact satDec_toNat c
  · rfl

/-- Settles O31: by the update as a number; with both or neither right, neither condition of the update holds. -/
theorem chooserMovesTowardsTheOneThatWasRight : Obligations.ChooserMovesTowardsTheOneThatWasRight := by
  intro c lp gp o
  refine ⟨fun hlp hgp => ?up, fun hlp hgp => ?down, fun hlp hgp => BitVec.eq_of_toNat_eq ?both,
    fun hlp hgp => BitVec.eq_of_toNat_eq ?neither⟩
  case up => rw [chooserUpdate_toNat, if_pos ⟨hlp, hgp⟩]
  case down => rw [chooserUpdate_toNat, if_neg fun hup => hup.1 hlp, if_pos ⟨hlp, hgp⟩]
  case both => rw [chooserUpdate_toNat, if_neg fun hup => hup.1 hlp, if_neg fun hdown => hdown.2 hgp]
  case neither => rw [chooserUpdate_toNat, if_neg fun hup => hgp hup.2, if_neg fun hdown => hlp hdown.1]

/-- What CHT reads after TRAIN moved its entry at `i`. -/
theorem arrRead_chooserTable_toNat (b : Block) (i j : Nat) (lp gp o : Bool) :
    (arrRead (tableFill .cht) (updatedTable b .cht i fun c => chooserUpdate c lp gp o) j).toNat =
      if j = i ∧ lp ≠ o ∧ gp = o then min ((readCtr b .cht j).toNat + 1) 3
      else if j = i ∧ lp = o ∧ gp ≠ o then (readCtr b .cht j).toNat - 1
      else (readCtr b .cht j).toNat := by
  rw [arrRead_updatedTable]
  by_cases hj : j = i
  · subst hj
    simp only [true_and, if_true]
    exact chooserUpdate_toNat _ lp gp o
  · simp only [hj, false_and, if_false]

/-! ### PREDICT and TRAIN (R66 to R69) -/

/-- R66's three indices, written as remainders by N, are those the engine forms. -/
theorem tournament_indices_eq {b : Block} {pc : Pc} {slot li gi : Nat} (hm : MaskValid b)
    (hslot : slot = pc.toNat % entries b) (hli : li = (readHist b slot ^^^ pc.toNat) % entries b)
    (hgi : gi = (pc.toNat % entries b) ^^^ (b.ghr % entries b)) :
    slot = pcIndex b pc ∧ li = localIndex b pc ∧ gi = globalIndex b pc := by
  obtain rfl : slot = pcIndex b pc := hslot.trans (pcIndex_eq_mod hm pc).symm
  exact ⟨rfl, hli.trans (masked_eq_mod hm _).symm, hgi.trans (globalIndex_eq_mod hm pc).symm⟩

/-- Settles O29: a PREDICT completes with the block as it was, and the word with O = 1 is an illegal one. -/
theorem tournamentPredictChoosesGlobalOrLocal : Obligations.TournamentPredictChoosesGlobalOrLocal := by
  intro s b pc slot li gi hb hm hv hslot hli hgi
  obtain ⟨rfl, rfl, rfl⟩ := tournament_indices_eq hm hslot hli hgi
  refine ⟨?decode, ?answer, exec_decodeRequest_of_illegalWord hb _ (illegalWord_predictO1Word pc)⟩
  case decode =>
    rw [hv]
    exact decodeRequest_predictWord .tournament pc
  case answer =>
    rw [← predicted_tournament]
    exact exec_predictInstr_of_running hb hv pc

/-- Settles O30: by what a read of each of the four arrays sees after its write, all formed from the block before. -/
theorem tournamentTrainWritesItsFiveArrays : Obligations.TournamentTrainWritesItsFiveArrays := by
  intro s b pc o slot li gi lp gp hb hm hv hslot hli hgi hlp hgp
  obtain ⟨rfl, rfl, rfl⟩ := tournament_indices_eq hm hslot hli hgi
  obtain rfl : lp = localPrediction b pc := hlp
  obtain rfl : gp = globalPrediction b pc := hgp
  refine ⟨?decode, trainedTable b .lpt (localIndex b pc) o, trainedTable b .gpt (globalIndex b pc) o,
    updatedTable b .cht (pcIndex b pc)
      (fun c => chooserUpdate c (localPrediction b pc) (globalPrediction b pc) o),
    shiftedHistories b (pcIndex b pc) o, ?next,
    fun j => arrRead_trainedTable_toNat b .lpt _ j o, fun j => arrRead_trainedTable_toNat b .gpt _ j o,
    fun j => arrRead_chooserTable_toNat b _ j _ _ o, readHist_writtenBlock_tournamentTrain b pc o⟩
  case decode =>
    rw [hv]
    exact decodeRequest_trainWord .tournament pc o
  case next =>
    rw [← shiftIn_eq_ite]
    exact exec_trainInstr_of_running hb hv pc o

end Sys2Proof.Machine
end

section
/-! Where a request is accepted, and what a step does where it is not (spec/60_exceptions.md R75, R76, R78, R83): a faulted
or absent block stops every request, an illegal request faults a running block and a legal one keeps it running, and a
construction is always reached. -/

namespace Sys2Proof.Machine

/-! ### Faulted and absent blocks (R75, R78, R83) -/

theorem accepting_of_no_block {s : State} (h : s.block = none) (k : Block → Host.Outcome State Fault Refusal) :
    accepting s k = .fault .noBlock := by
  rw [accepting, h]

/-- Every request begins by being accepted. -/
theorem exec_eq_accepting (i : Instr) (s : State) : ∃ k, exec i s = accepting s k := by
  cases i
  all_goals exact ⟨_, rfl⟩

/-- With no running block and no construction waiting, the words sent are passed over and the machine is idle. -/
theorem step_eq_idle_of_not_running {s : State} (h : ∀ b, ¬ Running s b)
    (hc : ∀ code n, .construct code n ∉ s.inputs) : step s = idle s := by
  rw [step_of_not_running h]
  obtain ⟨sent, code, n, rest, hs, -, -⟩ | ⟨-, hidle⟩ := awaitConstruction_cases s s.inputs
  · exact absurd (by simp [hs]) (hc code n)
  · exact hidle

/-- Settles O8: every request, and an idle step, must first be accepted, which a faulted block never does. -/
theorem faultedBlockAcceptsNoRequest : Obligations.FaultedBlockAcceptsNoRequest := by
  intro s b hb hf
  refine ⟨fun i => ?request, fun hc => ?step⟩
  case request =>
    obtain ⟨k, hk⟩ := exec_eq_accepting i s
    exact hk.trans (accepting_of_faulted hb hf k)
  case step =>
    exact (step_eq_idle_of_not_running (not_running_of_faulted hb hf) hc).trans (accepting_of_faulted hb hf _)

/-- Settles O9: every request, and an idle step, must first be accepted, which takes a block. -/
theorem noRequestWithoutABlock : Obligations.NoRequestWithoutABlock := by
  intro s hb
  refine ⟨fun i => ?request, fun hc => ?step⟩
  case request =>
    obtain ⟨k, hk⟩ := exec_eq_accepting i s
    exact hk.trans (accepting_of_no_block hb k)
  case step =>
    exact (step_eq_idle_of_not_running (not_running_of_no_block hb) hc).trans (accepting_of_no_block hb _)

theorem step_construct {s : State} {code : BitVec 2} {n : Nat} {rest : List Input}
    (h : s.inputs = .construct code n :: rest) : step s = construct code n { s with inputs := rest } := by
  unfold step
  simp only [h]

/-- Settles O51: the construction is the oldest input, or no block runs and the words before it are passed over. -/
theorem constructionIsReachedAtAnyTime : Obligations.ConstructionIsReachedAtAnyTime := by
  rintro s code n rest ⟨sent, hs, hwords, rfl | hn⟩
  · exact step_construct hs
  · rw [step_of_not_running hn, hs]
    exact awaitConstruction_append hwords

/-! ### Running blocks (R76, R78, R82) -/

/-- Settles O22: a running block accepts each illegal request, which raises the error without reading its free bits. -/
theorem illegalRequestsRaiseAndWriteNothing : Obligations.IllegalRequestsRaiseAndWriteNothing := fun _ _ hb =>
  ⟨fun _ => accepting_of_running hb _, fun _ => accepting_of_running hb _,
    fun _ bits ht => exec_illegalCtopReserved_of_running hb ht bits⟩

/-- A running block carries out every legal engine word and keeps running. -/
theorem exec_decodeRequest_of_not_illegalWord {s : State} {b : Block} (h : Running s b) {w : ReqWord}
    (hw : ¬ IllegalWord w) :
    ∃ t b', exec (decodeRequest b.cfg.variant w) s = .next t ∧ t.inputs = s.inputs ∧ Running t b' := by
  obtain ⟨pc, rfl⟩ | ⟨pc, o, rfl⟩ | ⟨bits, rfl⟩ | ⟨bits, rfl⟩ := engineWord_cases w
  · rw [decodeRequest_predictWord]
    exact ⟨_, b, exec_predictInstr_of_running h rfl pc, rfl, h⟩
  · rw [decodeRequest_trainWord]
    exact ⟨_, _, exec_trainInstr_of_running h rfl pc o, rfl, rfl, by rw [writtenBlock_status, h.2]⟩
  · exact absurd (illegalWord_predictO1Word bits) hw
  · exact absurd (illegalWord_opReservedWord bits) hw

/-- Settles O34: an illegal word faults the block, and every other one is a PREDICT or a TRAIN, which completes. -/
theorem legalEngineWordsAlwaysComplete : Obligations.LegalEngineWordsAlwaysComplete := by
  intro s b w rest hb hs
  rw [step_request_of_running hb hs]
  by_cases hw : IllegalWord w
  · exact ⟨_, _, exec_decodeRequest_of_illegalWord (s := { s with inputs := rest }) hb _ hw, rfl, rfl, by simp [hw]⟩
  · obtain ⟨t, b', ht, hin, hrun⟩ :=
      exec_decodeRequest_of_not_illegalWord (s := { s with inputs := rest }) hb hw
    exact ⟨t, b', ht, hin, hrun.1, by simp [hw, hrun.2]⟩

end Sys2Proof.Machine
end

section
/-! Construction's checks of its two arguments (spec/60_exceptions.md R75, spec/30_encoding.md R35). -/

namespace Sys2Proof.Machine

/-- The engine of every code but the reserved one (R35). -/
theorem variantOfCode_of_ne_reserved {code : BitVec 2} (h : code ≠ 0b11#2) : variantOfCode code =
    some (if code = 0b00#2 then .gshare else if code = 0b01#2 then .bimodal else .tournament) := by
  revert code; decide

theorem notPowerOfTwo_eq_false_iff (n : Nat) : notPowerOfTwo n = false ↔ ∃ k, n = 2 ^ k := by
  rw [← Nat.isPowerOfTwo, ← Nat.ne_zero_and_sub_one_eq_zero_iff_isPowerOfTwo]
  simp [notPowerOfTwo]

theorem construct_of_reserved_code (n : Nat) (s : State) : construct 0b11#2 n s = raiseConfigError s := rfl

theorem construct_of_notPowerOfTwo {n : Nat} (h : notPowerOfTwo n = true) (code : BitVec 2) (s : State) :
    construct code n s = raiseConfigError s := by
  unfold construct
  split
  · rfl
  · rw [if_pos h]

/-- With an engine's code and a power of two, what construction does turns on the exponent alone. -/
theorem construct_two_pow {code : BitVec 2} {v : Variant} (hv : variantOfCode code = some v) (k : Nat) (s : State) :
    construct code (2 ^ k) s =
      if h : k < 33 then
        .next { s with block := some (Block.fresh v ⟨k, h⟩), response := some (.construction .noError) }
      else .refused .memLimitAbove2Pow32 := by
  have hpow : notPowerOfTwo (2 ^ k) = false := (notPowerOfTwo_eq_false_iff _).2 ⟨k, rfl⟩
  simp [construct, hv, hpow, Nat.log2_two_pow]

/-- Settles O11: the two argument checks fail as CONFIG_ERROR, and where both hold the exponent decides. -/
theorem constructionChecksItsArguments : Obligations.ConstructionChecksItsArguments := by
  intro code n s
  refine ⟨?configError, ?refused, ?built⟩
  case configError =>
    rintro (rfl | hn)
    · exact construct_of_reserved_code n s
    · rw [← notPowerOfTwo_eq_false_iff, Bool.not_eq_false] at hn
      exact construct_of_notPowerOfTwo hn code s
  case refused =>
    rintro k hcode rfl hk
    rw [construct_two_pow (variantOfCode_of_ne_reserved hcode), dif_neg (by omega)]
  case built =>
    rintro k hcode rfl hk
    rw [construct_two_pow (variantOfCode_of_ne_reserved hcode), dif_pos (by omega)]
    exact ⟨_, rfl, rfl, rfl⟩

end Sys2Proof.Machine
end

section
/-! The host harness (spec/60_exceptions.md R84 to R89): the records of a trace, the replay loop over a running block, and
the report. -/

namespace Sys2Proof.Machine

/-! ### The trace (R84, R85) -/

/-- The number in two adjacent bit fields, the first one more significant. -/
theorem append_toNat {m n : Nat} (x : BitVec m) (y : BitVec n) : (x ++ y).toNat = x.toNat * 2 ^ n + y.toNat := by
  rw [BitVec.toNat_append, ← Nat.shiftLeft_add_eq_or_of_lt y.isLt, Nat.shiftLeft_eq]

/-- Settles O45: the record is the one the parser makes of the five bytes, and its pc is four appended bytes. -/
theorem traceBytesMakeRecords : Obligations.TraceBytesMakeRecords := by
  intro n0 n1 n2 n3 b0 b1 b2 b3 f rest
  refine ⟨{ pc := b0 ++ b1 ++ b2 ++ b3, outcome := f != 0 }, rfl, ?pc, bne_iff_ne⟩
  case pc =>
    have hpc : (b0 ++ b1 ++ b2 ++ b3).toNat =
        ((b0.toNat * 2 ^ 8 + b1.toNat) * 2 ^ 8 + b2.toNat) * 2 ^ 8 + b3.toNat := by
      rw [append_toNat, append_toNat, append_toNat]
    calc (b0 ++ b1 ++ b2 ++ b3).toNat = _ := hpc
      _ = _ := by ring

theorem parseRecords_length : ∀ bytes : List Byte, (parseRecords bytes).length = bytes.length / 5
  | _ :: _ :: _ :: _ :: _ :: rest => by
    rw [parseRecords, List.length_cons, parseRecords_length rest]
    simp only [List.length_cons]
    omega
  | [] | [_] | [_, _] | [_, _, _] | [_, _, _, _] => by simp [parseRecords]

/-- Settles O46: five bytes make a record, so the count is a quotient by 5. -/
theorem partialFinalRecordIsDiscarded : Obligations.PartialFinalRecordIsDiscarded := by
  intro bytes m r hlen hr
  rw [parseTrace, parseRecords_length, List.length_drop]
  omega

/-! ### The replay loop (R86, R87) -/

/-- A word sent to a running block that has nothing else to take is the request it decodes to. -/
theorem transact_of_running {s : State} {b : Block} (hb : Running s b) (hs : s.inputs = []) (w : ReqWord) :
    transact w s = exec (decodeRequest b.cfg.variant w) s := by
  have hin : (issue (.send (.request w)) s).inputs = .send (.request w) :: [] := by rw [issue_inputs, hs]; rfl
  have hback : { issue (.send (.request w)) s with inputs := [] } = s := by rw [← hs]; rfl
  calc transact w s
      = exec (decodeRequest b.cfg.variant w) { issue (.send (.request w)) s with inputs := [] } :=
        step_request_of_running (s := issue (.send (.request w)) s) hb hin
    _ = exec (decodeRequest b.cfg.variant w) s := by rw [hback]

/-- The state after the PREDICT of `pc` on the running block `b` (R54, R61, R68). -/
def afterPredict (s : State) (b : Block) (pc : Pc) : State :=
  { s with response := some (.engine (engineRsp .noError (predicted b pc b.cfg.variant))) }

/-- The state after the TRAIN of `pc` and `o` on the running block `b` (R55, R62, R69). -/
def afterTrain (s : State) (b : Block) (pc : Pc) (o : Bool) : State :=
  { s with
    block := some (writtenBlock b (trainInstr b.cfg.variant pc o)), response := some (.engine 0b000#3) }

/-- The counters after a record whose prediction was `p` (R87). -/
def Counts.afterRecord (c : Counts) (p outcome : Bool) : Counts where
  branchCount := c.branchCount + 1
  mispredictCount := c.mispredictCount + (if p = outcome then 0 else 1)

theorem Counts.afterRecord_branchCount (c : Counts) (p outcome : Bool) :
    (c.afterRecord p outcome).branchCount = c.branchCount + 1 := rfl

theorem Counts.afterRecord_mispredictCount_le (c : Counts) (p outcome : Bool) :
    (c.afterRecord p outcome).mispredictCount ≤ c.mispredictCount + 1 :=
  Nat.add_le_add_left (by split_ifs <;> decide) _

section
variable {s : State} {b : Block}

theorem afterPredict_running (hb : Running s b) (pc : Pc) : Running (afterPredict s b pc) b := hb

theorem afterPredict_pred (pc : Pc) : (afterPredict s b pc).pred = some (predicted b pc b.cfg.variant) :=
  congrArg some (engineRsp_pred .noError _)

theorem afterPredict_respErr (pc : Pc) : (afterPredict s b pc).respErr = some 0#2 :=
  congrArg some (engineRsp_err .noError _)

theorem afterTrain_running (hb : Running s b) (pc : Pc) (o : Bool) :
    Running (afterTrain s b pc o) (writtenBlock b (trainInstr b.cfg.variant pc o)) :=
  ⟨rfl, by rw [writtenBlock_status, hb.2]⟩

theorem afterTrain_respErr (pc : Pc) (o : Bool) : (afterTrain s b pc o).respErr = some 0#2 := rfl

theorem exec_predictInstr_eq_afterPredict (hb : Running s b) (pc : Pc) :
    exec (predictInstr b.cfg.variant pc) s = .next (afterPredict s b pc) :=
  exec_predictInstr_of_running hb rfl pc

theorem exec_trainInstr_eq_afterTrain (hb : Running s b) (pc : Pc) (o : Bool) :
    exec (trainInstr b.cfg.variant pc o) s = .next (afterTrain s b pc o) :=
  exec_trainInstr_of_running hb rfl pc o

/-- One record on a running block: both of its words are carried out without an error (R86). -/
theorem replayRecord_of_running (hb : Running s b) (hs : s.inputs = []) (r : Record) (c : Counts) :
    replayRecord r c s = .done (c.afterRecord (predicted b r.pc b.cfg.variant) r.outcome)
      (afterTrain (afterPredict s b r.pc) b r.pc r.outcome) := by
  have hpredict : transact (predictWord r.pc) s = .next (afterPredict s b r.pc) := by
    rw [transact_of_running hb hs, decodeRequest_predictWord, exec_predictInstr_eq_afterPredict hb]
  have htrain : transact (trainWord r.pc r.outcome) (afterPredict s b r.pc) =
      .next (afterTrain (afterPredict s b r.pc) b r.pc r.outcome) := by
    rw [transact_of_running (afterPredict_running hb r.pc) hs, decodeRequest_trainWord,
      exec_trainInstr_eq_afterTrain (afterPredict_running hb r.pc)]
  simp [replayRecord, hpredict, htrain, afterPredict_pred, afterPredict_respErr, afterTrain_respErr,
    Counts.afterRecord]

end

/-- Settles O47: the two words of the record run as the engine's PREDICT and TRAIN. -/
theorem replayRecordIsPredictThenTrain : Obligations.ReplayRecordIsPredictThenTrain := fun s b r c hb hs =>
  ⟨predicted b r.pc b.cfg.variant, afterPredict s b r.pc, afterTrain (afterPredict s b r.pc) b r.pc r.outcome,
    exec_predictInstr_eq_afterPredict hb r.pc, afterPredict_pred r.pc,
    exec_trainInstr_eq_afterTrain (afterPredict_running hb r.pc) r.pc r.outcome, replayRecord_of_running hb hs r c⟩

/-- A record leaves the block running with nothing to take, so the loop goes through all of them; each one counts one
branch and at most one miss. -/
theorem replayFrom_of_running (records : List Record) {s : State} {b : Block} (hb : Running s b) (hs : s.inputs = [])
    (c : Counts) :
    ∃ c' t b', replayFrom records c s = .done c' t ∧ c'.branchCount = c.branchCount + records.length ∧
      c'.mispredictCount ≤ c.mispredictCount + records.length ∧ Running t b' ∧ b'.cfg = b.cfg ∧ t.inputs = [] := by
  induction records generalizing s b c with
  | nil => exact ⟨c, s, b, rfl, rfl, le_rfl, hb, rfl, hs⟩
  | cons r rest ih =>
    obtain ⟨c', t, b', hrest, hbranch, hmiss, hrun, hcfg, hin⟩ :=
      ih (afterTrain_running (afterPredict_running hb r.pc) r.pc r.outcome) hs
        (c.afterRecord (predicted b r.pc b.cfg.variant) r.outcome)
    have hone := c.afterRecord_mispredictCount_le (predicted b r.pc b.cfg.variant) r.outcome
    refine ⟨c', t, b', ?_, ?_, ?_, hrun, hcfg.trans (writtenBlock_cfg b _), hin⟩
    · rw [replayFrom, replayRecord_of_running hb hs]
      exact hrest
    · rw [hbranch, Counts.afterRecord_branchCount, List.length_cons]
      omega
    · rw [List.length_cons]
      omega

/-- Settles O48: the loop over the records started with both counters 0. -/
theorem replayAlwaysEndsDone : Obligations.ReplayAlwaysEndsDone := by
  intro records s b hb hs
  obtain ⟨c, t, b', hdone, hbranch, hmiss, hrun, hcfg, hin⟩ := replayFrom_of_running records hb hs ⟨0, 0⟩
  rw [Nat.zero_add] at hbranch hmiss
  exact ⟨c, t, b', hdone, hbranch, hmiss.trans hbranch.ge, hrun, hcfg, hin⟩

/-! ### The report (R88, R89) -/

theorem report_rate_of_ne_zero {c : Counts} (h : c.branchCount ≠ 0) :
    (report c).rate = some (100 * (c.mispredictCount : ℚ) / (c.branchCount : ℚ)) := if_neg h

theorem report_rate_of_eq_zero {c : Counts} (h : c.branchCount = 0) : (report c).rate = none := if_pos h

/-- Settles O50: the rate's quotient is exact, since its divisor is not 0 where there is one. -/
theorem reportGivesTheExactRate : Obligations.ReportGivesTheExactRate := by
  refine ⟨fun c hc => ⟨_, report_rate_of_ne_zero hc, ?_⟩, fun c hc => report_rate_of_eq_zero hc,
    fun _ => ⟨rfl, rfl⟩, fun _ => rfl⟩
  exact div_mul_cancel₀ _ (Nat.cast_ne_zero.2 hc)

end Sys2Proof.Machine
end

section
/-! Reset, which is construction, and the block between requests and along the host's per-record protocol
(spec/70_reset_and_hazards.md R91 to R99). -/

namespace Sys2Proof.Machine

/-! ### Reset (R91 to R93) -/

@[simp] theorem readCtr_fresh (v : Variant) (k : Fin 33) (t : TableName) (i : Nat) :
    readCtr (Block.fresh v k) t i = tableFill t := by
  rw [readCtr, tableOf_fresh, arrRead_nil]

@[simp] theorem readHist_fresh (v : Variant) (k : Fin 33) (i : Nat) : readHist (Block.fresh v k) i = 0 := by
  rw [readHist, fresh_lht, arrRead_nil, historyFill]

theorem construct_two_pow_of_le {code : BitVec 2} {v : Variant} (hv : variantOfCode code = some v) {k : Nat}
    (hk : k ≤ 32) (s : State) :
    construct code (2 ^ k) s = .next { s with
      block := some (Block.fresh v ⟨k, Nat.lt_succ_of_le hk⟩), response := some (.construction .noError) } := by
  rw [construct_two_pow hv, dif_pos (Nat.lt_succ_of_le hk)]

/-- Settles O12: the step is the construction, which leaves the fresh block and keeps nothing of the one before. -/
theorem constructionSetsEveryElement : Obligations.ConstructionSetsEveryElement := by
  intro s code v k rest hk hcode hs
  have hv : variantOfCode code = some v := by
    simp only [List.mem_cons, Prod.mk.injEq, List.not_mem_nil, or_false] at hcode
    obtain ⟨rfl, rfl⟩ | ⟨rfl, rfl⟩ | ⟨rfl, rfl⟩ := hcode
    all_goals rfl
  exact ⟨_, (step_construct hs).trans (construct_two_pow_of_le hv hk _), rfl, rfl, maskOf_toNat _, rfl, rfl,
    fun i => ⟨readCtr_fresh _ _ .pt i, readCtr_fresh _ _ .lpt i, readCtr_fresh _ _ .gpt i, readCtr_fresh _ _ .cht i⟩,
    rfl, fun i => readHist_fresh _ _ i⟩

/-- Settles O13: code 0b10 is the Tournament engine's, and MEM_LIMIT 4 is 2^2. -/
theorem resetIsAConstruction : Obligations.ResetIsAConstruction := by
  intro s hs
  refine (construct_two_pow_of_le (code := 0b10#2) rfl (k := 2) (by decide) s).trans ?_
  rw [hs]
  rfl

/-- Settles O14: the block of reset is a freshly constructed one. -/
theorem resetMeetsTheInvariant : Obligations.ResetMeetsTheInvariant := by
  rintro _ ⟨⟩
  exact fresh_wf _ _

/-! ### Between requests (R99) -/

theorem step_of_no_inputs {s : State} (h : s.inputs = []) : step s = idle s := by
  unfold step
  simp only [h]

/-- Settles O7: with nothing sent a step is idle, and an idle running block answers the same state. -/
theorem runningBlockWaitsWithoutChange : Obligations.RunningBlockWaitsWithoutChange := fun _ _ hb hs =>
  (step_of_no_inputs hs).trans (accepting_of_running hb _)

/-! ### The per-record protocol (R86, R95, R96) -/

/-- What the host sends for one record: PREDICT of its pc, then TRAIN of its pc and outcome (R86). -/
def recordInputs (r : Record) : List Input :=
  [.send (.request (predictWord r.pc)), .send (.request (trainWord r.pc r.outcome))]

theorem eq_predictWord_of_fields {w : ReqWord} (hop : reqOp w = 0b00#2) (ho : reqOutcome w = false) :
    w = predictWord (reqPc w) := by
  have hw := eq_requestWord_fields w
  rwa [hop, ho] at hw

theorem eq_trainWord_of_fields {w : ReqWord} (hop : reqOp w = 0b01#2) : w = trainWord (reqPc w) (reqOutcome w) := by
  have hw := eq_requestWord_fields w
  rwa [hop] at hw

/-- Inputs that keep the protocol are those of a list of records. -/
theorem exists_records_of_followsProtocol {l : List Input} (h : followsProtocol l = true) :
    ∃ records : List Record, l = records.flatMap recordInputs := by
  fun_induction followsProtocol l with
  | case1 => exact ⟨[], rfl⟩
  | case2 p t rest ih =>
    simp only [Bool.and_eq_true, decide_eq_true_eq, Bool.not_eq_true'] at h
    obtain ⟨⟨⟨⟨hpop, hpo⟩, htop⟩, hpc⟩, hrest⟩ := h
    obtain ⟨records, rfl⟩ := ih hrest
    have hp : p = predictWord (reqPc t) := by rw [← hpc]; exact eq_predictWord_of_fields hpop hpo
    have ht : t = trainWord (reqPc t) (reqOutcome t) := eq_trainWord_of_fields htop
    refine ⟨⟨reqPc t, reqOutcome t⟩ :: records, ?_⟩
    rw [List.flatMap_cons, recordInputs, ← hp, ← ht]
    rfl
  | case3 => cases h

theorem coreRun_succ_of_step {M : Host.Core} {s t : M.State} (h : M.step s = .next t) (n : Nat) :
    M.run (n + 1) s = M.run n t := by
  rw [Host.Core.run, h]

theorem run_succ_of_step {s t : State} (h : step s = .next t) (n : Nat) :
    Host.Core.run core (n + 1) s = Host.Core.run core n t :=
  coreRun_succ_of_step (M := core) h n

section
variable {s : State} {b : Block} (hb : Running s b) {pc : Pc} {rest : List Input}
include hb

theorem step_predictWord_of_running (hs : s.inputs = .send (.request (predictWord pc)) :: rest) :
    step s = .next (afterPredict { s with inputs := rest } b pc) := by
  rw [step_request_of_running hb hs, decodeRequest_predictWord]
  exact exec_predictInstr_eq_afterPredict (s := { s with inputs := rest }) hb pc

theorem step_trainWord_of_running {o : Bool} (hs : s.inputs = .send (.request (trainWord pc o)) :: rest) :
    step s = .next (afterTrain { s with inputs := rest } b pc o) := by
  rw [step_request_of_running hb hs, decodeRequest_trainWord]
  exact exec_trainInstr_eq_afterTrain (s := { s with inputs := rest }) hb pc o

/-- Two steps carry out a record whose inputs are the oldest. -/
theorem run_record_of_running {r : Record} (hs : s.inputs = recordInputs r ++ rest) (n : Nat) :
    Host.Core.run core (n + 2) s =
      Host.Core.run core n (afterTrain (afterPredict { s with inputs := rest } b r.pc) b r.pc r.outcome) :=
  have hpredict := step_predictWord_of_running hb hs
  have htrain := step_trainWord_of_running (o := r.outcome) (rest := rest)
    (s := afterPredict { s with inputs := .send (.request (trainWord r.pc r.outcome)) :: rest } b r.pc) hb rfl
  (run_succ_of_step hpredict _).trans (run_succ_of_step htrain _)

end

/-- A record leaves the block running with the inputs of the later ones, so the machine goes through all of them. -/
theorem run_records_of_running (records : List Record) {s : State} {b : Block} (hb : Running s b)
    (hs : s.inputs = records.flatMap recordInputs) :
    ∃ t b', Host.Core.run core s.inputs.length s = .next t ∧ Running t b' ∧ b'.cfg = b.cfg ∧ t.inputs = [] := by
  induction records generalizing s b with
  | nil =>
    rw [hs]
    exact ⟨s, b, rfl, hb, rfl, hs⟩
  | cons r records ih =>
    rw [List.flatMap_cons] at hs
    obtain ⟨t, b', hrun, hb', hcfg, hin⟩ :=
      ih (s := afterTrain (afterPredict { s with inputs := records.flatMap recordInputs } b r.pc) b r.pc r.outcome)
        (afterTrain_running hb r.pc r.outcome) rfl
    refine ⟨t, b', ?_, hb', hcfg.trans (writtenBlock_cfg b _), hin⟩
    rw [hs]
    exact (run_record_of_running hb hs _).trans hrun

/-- Settles O49: the inputs are those of a list of records, each of which a running block carries out in two steps. -/
theorem protocolRunsToTheEnd : Obligations.ProtocolRunsToTheEnd := by
  intro s b hb hprotocol
  obtain ⟨records, hs⟩ := exists_records_of_followsProtocol hprotocol
  exact run_records_of_running records hb hs

end Sys2Proof.Machine
end
